-- ==== Sys2Proof/Word.lean ====
section
/-! DEFINITION. The word types of the block (00_scope.md rules R7, R8): bytes, 64-bit lanes, 64-bit command words. -/

namespace Sys2Proof

/-- A byte is 8 bits (00_scope.md R7). -/
abbrev Byte := BitVec 8

/-- A lane is a 64-bit unsigned value (00_scope.md R7). -/
abbrev Lane := BitVec 64

/-- A command word is 64 bits (30_encoding.md R43, R44). -/
abbrev CommandWord := BitVec 64

end Sys2Proof
end

