-- ==== Sys2Proof/Config.lean ====
section
/-! DEFINITION. The implementation parameters of 00_scope.md rule R5. The spec leaves none of them open
(92_eei_decisions.md: "No row is OPEN"), so there is no free value here. -/

namespace Sys2Proof.Config

/-- `STATE_BITS`, also the value `rate + capacity` must have (R5, R16). -/
@[simp] abbrev stateBits : Nat := 1600

/-- `STATE_BYTES`: byte addresses run from 0 to 199 (R5, R28). -/
@[simp] abbrev stateBytes : Nat := 200

/-- `N_LANES` (R5). -/
@[simp] abbrev laneCount : Nat := 25

/-- `N_ROUNDS` (R5). -/
@[simp] abbrev roundCount : Nat := 24

/-- Width of the `obs` field of a command word (30_encoding.md R44, R48). -/
@[simp] abbrev obsFieldWidth : Nat := 16

/-- `OUTLEN_W`, width of the `len` field of a command word (R5, 30_encoding.md R49). -/
@[simp] abbrev lenFieldWidth : Nat := 32

end Sys2Proof.Config
end

