-- ==== Sys2Proof/Syntax.lean ====
section
/-! DEFINITION. The four host commands with their operands (30_encoding.md rules R43 to R50), one constructor
per row of spec/opcode_table.json, and the transaction that carries one. -/

namespace Sys2Proof

/-- `mode` of a command and the register `MODE`: one bit, 0 = SHA3, 1 = SHAKE (30_encoding.md R47, 10_state.md R19). -/
inductive Mode where
  | sha3
  | shake
  deriving DecidableEq, Repr

/-- A host command with its operands in the order of the source's signatures (30_encoding.md R55).
`outputBitSize` and `outLen` are naturals, the zero-extended values of the fields `obs` and `len` (R48 to R50);
`data` and `input` are the payload (R43, R53), which the command word does not hold. -/
inductive Instr where
  /-- `init(outputBitSize, mode)` (43_streaming_engine.md R91). -/
  | init (outputBitSize : Nat) (mode : Mode)
  /-- `update(data)` (R93). -/
  | update (data : List Byte)
  /-- `final(outLen)` (R96). -/
  | final (outLen : Nat)
  /-- `hash(outLen, input, outputBitSize, mode)` (R99). -/
  | hash (outLen : Nat) (input : List Byte) (outputBitSize : Nat) (mode : Mode)
  deriving DecidableEq, Repr

/-- What goes in with one command transaction: the command word and the payload (30_encoding.md R43). -/
structure Transaction where
  word : CommandWord
  payload : List Byte
  deriving DecidableEq, Repr

end Sys2Proof
end

