-- ==== Sys2Proof/WellFormed.lean ====
section
/-! DEFINITION. Which command terms a 64-bit command word can carry: the operand ranges of 30_encoding.md rules
R48 (`obs`, 16 bits) and R49 (`len`, 32 bits). Whether an operand is LEGAL is not a matter of encoding (R48, R49):
`init(200, SHA3)` is well formed and ends in `ERR_PARAM`. -/

namespace Sys2Proof

/-- `outputBitSize` fits the `obs` field (30_encoding.md R48). -/
def obsFits (outputBitSize : Nat) : Bool := decide (outputBitSize < 2 ^ Config.obsFieldWidth)

/-- `outLen` fits the `len` field (30_encoding.md R49). -/
def lenFits (outLen : Nat) : Bool := decide (outLen < 2 ^ Config.lenFieldWidth)

/-- Every operand fits its field; a payload may have any length (R53). -/
def Instr.wf : Instr → Bool
  | .init outputBitSize _ => obsFits outputBitSize
  | .update _ => true
  | .final outLen => lenFits outLen
  | .hash outLen _ outputBitSize _ => lenFits outLen && obsFits outputBitSize

end Sys2Proof
end

