-- ==== Sys2Proof/Decode.lean ====
section
/-! DEFINITION. Decoding a command transaction and encoding a command (30_encoding.md rules R44 to R51).
Decoding is total and reads no state (R43); every rejection has a name, one for each item of R51. -/

namespace Sys2Proof

/-- Why a transaction is illegal: the four items of 30_encoding.md R51. -/
inductive DecodeError where
  /-- Item 1: the opcode byte is `0x00` or in `0x05`..`0xFF`. -/
  | unknownOpcode (opcode : Nat)
  /-- Item 2: `rsv != 0`. -/
  | reservedBits
  /-- Item 3: a field its format marks "must be 0" is not zero. -/
  | unusedField
  /-- Item 4: a payload with `INIT` or `FINAL`. -/
  | payloadNotAllowed
  deriving DecidableEq, Repr

/-- `v[hi:lo]`, the unsigned value of bits `hi` down to `lo` inclusive (00_scope.md R7). -/
def bitRange (v : Nat) (hi lo : Nat) : Nat := v / 2 ^ lo % 2 ^ (hi + 1 - lo)

/-- Bits 63:56 (R44). -/
def opcodeField (w : CommandWord) : Nat := bitRange w.toNat 63 56

/-- Bits 55:49, reserved (R44). -/
def rsvField (w : CommandWord) : Nat := bitRange w.toNat 55 49

/-- Bit 48 (R44). -/
def modeField (w : CommandWord) : Nat := bitRange w.toNat 48 48

/-- Bits 47:32 (R44). -/
def obsField (w : CommandWord) : Nat := bitRange w.toNat 47 32

/-- Bits 31:0 (R44). -/
def lenField (w : CommandWord) : Nat := bitRange w.toNat 31 0

/-- The `mode` bit: 0 = SHA3, 1 = SHAKE (R47). -/
def modeOfBit (bit : Nat) : Mode := if bit = 0 then .sha3 else .shake

/-- The one-bit code of a mode (R47). -/
def Mode.bit : Mode → Nat
  | .sha3 => 0
  | .shake => 1

/-- Opcode map, R46. -/
def opInit : Nat := 0x01
def opUpdate : Nat := 0x02
def opFinal : Nat := 0x03
def opHash : Nat := 0x04

/-- Format I: `mode`, `obs` used; `len` must be 0; no payload (R45). -/
def decodeInit (t : Transaction) : Except DecodeError Instr :=
  if rsvField t.word ≠ 0 then .error .reservedBits
  else if lenField t.word ≠ 0 then .error .unusedField
  else if t.payload ≠ [] then .error .payloadNotAllowed
  else .ok (.init (obsField t.word) (modeOfBit (modeField t.word)))

/-- Format U: `mode`, `obs`, `len` must be 0; any payload (R45). -/
def decodeUpdate (t : Transaction) : Except DecodeError Instr :=
  if rsvField t.word ≠ 0 then .error .reservedBits
  else if modeField t.word ≠ 0 ∨ obsField t.word ≠ 0 ∨ lenField t.word ≠ 0 then .error .unusedField
  else .ok (.update t.payload)

/-- Format L: `mode`, `obs` must be 0; `len` used; no payload (R45). -/
def decodeFinal (t : Transaction) : Except DecodeError Instr :=
  if rsvField t.word ≠ 0 then .error .reservedBits
  else if modeField t.word ≠ 0 ∨ obsField t.word ≠ 0 then .error .unusedField
  else if t.payload ≠ [] then .error .payloadNotAllowed
  else .ok (.final (lenField t.word))

/-- Format H: every field used; any payload (R45). -/
def decodeHash (t : Transaction) : Except DecodeError Instr :=
  if rsvField t.word ≠ 0 then .error .reservedBits
  else .ok (.hash (lenField t.word) t.payload (obsField t.word) (modeOfBit (modeField t.word)))

/-- The decoder (R43 to R51): total, reads no state. -/
def decode (t : Transaction) : Except DecodeError Instr :=
  if opcodeField t.word = opInit then decodeInit t
  else if opcodeField t.word = opUpdate then decodeUpdate t
  else if opcodeField t.word = opFinal then decodeFinal t
  else if opcodeField t.word = opHash then decodeHash t
  else .error (.unknownOpcode (opcodeField t.word))

/-- A row of R46's match and mask table: `word & mask == match` selects the command. -/
structure OpcodePattern where
  matchBits : CommandWord
  mask : CommandWord
  deriving DecidableEq, Repr

def OpcodePattern.selects (p : OpcodePattern) (w : CommandWord) : Bool := w &&& p.mask == p.matchBits

/-- R46's match and mask table, in the order INIT, UPDATE, FINAL, HASH. -/
def opcodePatterns : List OpcodePattern :=
  [⟨0x0100000000000000, 0xFFFE0000FFFFFFFF⟩,
   ⟨0x0200000000000000, 0xFFFFFFFFFFFFFFFF⟩,
   ⟨0x0300000000000000, 0xFFFFFFFF00000000⟩,
   ⟨0x0400000000000000, 0xFFFE000000000000⟩]

/-- `word = opcode || rsv || mode || obs || len` with `rsv = 0` (R44). -/
def assembleWord (opcode mode obs len : Nat) : CommandWord :=
  BitVec.ofNat 64 (opcode * 2 ^ 56 + mode * 2 ^ 48 + obs * 2 ^ 32 + len)

/-- The transaction of a well-formed command (R44, R45). -/
def encode : Instr → Transaction
  | .init obs mode => ⟨assembleWord opInit mode.bit obs 0, []⟩
  | .update data => ⟨assembleWord opUpdate 0 0 0, data⟩
  | .final outLen => ⟨assembleWord opFinal 0 0 outLen, []⟩
  | .hash outLen input obs mode => ⟨assembleWord opHash mode.bit obs outLen, input⟩

/-- What the host presents when only the bits of a command word are given: that word and an empty payload. -/
def tableTransaction (nbits w : Nat) : Transaction := ⟨BitVec.ofNat 64 (w % 2 ^ nbits), []⟩

/-- The command the decoder reads from the `nbits` low bits `w` of a command word (all bits above are 0), with an
empty payload. A command word has one length, 64 bits (30_encoding.md R44, R53): more bits are no command. -/
def decodeTableWord (nbits w : Nat) : Option Instr :=
  if nbits ≤ 64 then (decode (tableTransaction nbits w)).toOption else none

end Sys2Proof
end

