-- ==== Sys2Proof/Machine/State.lean ====
section
/-! DEFINITION. The state of the machine: the engine context (10_state.md, all of it) and the host's side of the
command port; the reasons a step can stop; the state after reset. -/

namespace Sys2Proof.Machine

/-- The state buffer: 25 lanes of 64 bits, `A[0]` to `A[24]`, the block's general register file (10_state.md R13).
The byte view `S[0]` to `S[199]` of the same storage (R14) is computed from the lanes in Machine/Ops.lean. -/
structure Buffer where
  lanes : Vector Lane 25
  deriving DecidableEq, Repr

/-- `PHASE`, the lifecycle register (10_state.md R20); its two-bit code is `Phase.code`. -/
inductive Phase where
  | uninitialized
  | initialized
  | absorbing
  | finalized
  deriving DecidableEq, Repr

/-- The engine context (00_scope.md R12): every register the spec gives the block. -/
structure Context where
  /-- `S` / `A` (10_state.md R13 to R15). -/
  buffer : Buffer
  /-- `RATE`, in bits (R16). -/
  rate : BitVec 11
  /-- `CAPACITY`, in bits (R16). -/
  capacity : BitVec 11
  /-- `SUFFIX`, the domain-separation byte (R16). -/
  suffix : Byte
  /-- `OFFSET`, bytes already absorbed into the current block (R18). -/
  offset : BitVec 8
  /-- `MODE` (R19). -/
  mode : Mode
  /-- `OBS`, the `outputBitSize` given to `INIT` (R19). -/
  obs : BitVec 10
  /-- `PHASE` (R20). -/
  phase : Phase
  deriving DecidableEq, Repr

/-- The status of a response (30_encoding.md R54); its byte is `Status.code`. -/
inductive Status where
  | ok
  | errParam
  | errUsage
  | errIllegal
  deriving DecidableEq, Repr

/-- What comes out of one command transaction (30_encoding.md R43, R54). -/
structure Response where
  status : Status
  output : List Byte
  deriving DecidableEq, Repr

/-- What the host can do to the block: present a command transaction, or assert reset (00_scope.md R11,
70_reset_and_hazards.md R125). -/
inductive HostEvent where
  | command (t : Transaction)
  | reset
  deriving DecidableEq, Repr

/-- The machine: the engine context, what the host will do next (in order), and the responses given so far (oldest
first). No command reads `pending` or `responses`: they are the two sides of the command port, not registers of the
block (30_encoding.md R43; DESIGN CHOICE, log 2 and 3). -/
structure State where
  ctx : Context
  pending : List HostEvent
  responses : List Response
  deriving DecidableEq, Repr

/-- The causes of `ParameterError` (60_exceptions.md R108): labels, they select no behaviour and are not reported. -/
inductive ParameterCause where
  | rateCapacitySum
  | rateNotPositiveMultipleOf8
  | unsupportedOutputBitSize
  | outLenMismatch
  deriving DecidableEq, Repr

/-- Reasons the machine stops with a fault. -/
inductive Fault where
  /-- Raised by `ABSORB` (`UPDATE`) when its fill counter leaves the 200 byte addresses of the state space, which
  20_memory.md R28 says cannot be formed. Only in contexts that 10_state.md R21 excludes. Safe: the model stops. -/
  | addressOutsideStateSpace (address : Nat)
  deriving DecidableEq, Repr

/-- Reasons an instruction has no meaning. -/
inductive Refusal where
  /-- Raised by `exec` for a command without a meaning; no command is left so. Safe. -/
  | notModelled (mnemonic : String)
  /-- Raised by `SQUEEZE` (`FINAL`) outside the precondition of 42_squeeze.md R81, where "A model must refuse such a
  call, not compute something". Only in contexts that 10_state.md R21 excludes. Safe: the model stops. -/
  | squeezePrecondition
  deriving DecidableEq, Repr

/-- The outcome of running one command. -/
abbrev Outcome := Host.Outcome State Fault Refusal

/-- What a micro-operation hands to its caller: a result, or `raise ParameterError(cause)` (00_scope.md R10), or a
stop. -/
inductive MicroResult (α : Type) where
  | done (a : α)
  | raised (cause : ParameterCause)
  | fault (reason : Fault)
  | refused (reason : Refusal)
  deriving DecidableEq, Repr

/-- Every register of the context at its value of 10_state.md R27. -/
def Context.reset : Context where
  buffer := ⟨Vector.replicate 25 0⟩
  rate := 0
  capacity := 0
  suffix := 0
  offset := 0
  mode := .sha3
  obs := 0
  phase := .uninitialized

/-- The machine right after reset (10_state.md R27, 70_reset_and_hazards.md R125, R127): it waits for its first
command; the host has presented nothing and has received nothing (log 2, 3). -/
def State.reset : State where
  ctx := .reset
  pending := []
  responses := []

end Sys2Proof.Machine
end

