-- ==== Sys2Proof/Machine/Ops.lean ====
section
/-! DEFINITION. The shared operations: rotation, the lane view and the byte view of the state buffer, ending a command
with a response, and the three errors with their state effect. There is no return from an error: an error transfers
control nowhere and the block is ready for the next command at once (60_exceptions.md R117). -/

namespace Sys2Proof.Machine

/-- `rotl64(a, n)`, to the left by `n mod 64` places, the identity when that is 0 (00_scope.md R8). -/
def rotl64 (a : Lane) (n : Nat) : Lane :=
  if n % 64 = 0 then a else (a <<< (n % 64)) ||| (a >>> (64 - n % 64))

/-! ## The state buffer: two views of the same 1600 bits (10_state.md R14) -/

/-- `A[i]` for `i` in 0..24 (00_scope.md R9). No rule names another lane. -/
def Buffer.lane (b : Buffer) (i : Nat) : Lane := b.lanes.toList.getD i 0

/-- `A[x, y]` is `A[x + 5*y]`, `x` the column and `y` the row (10_state.md R15). -/
def Buffer.laneAt (b : Buffer) (x y : Nat) : Lane := b.lane (x + 5 * y)

/-- The buffer with `A[i] = f i` for every `i` in 0..24. -/
def Buffer.tabulate (f : Nat → Lane) : Buffer := ⟨⟨((List.range 25).map f).toArray, by simp⟩⟩

/-- `A[i] <- v` (00_scope.md R9): exactly bytes `8*i` to `8*i+7` change (20_memory.md R31). -/
def Buffer.setLane (b : Buffer) (i : Nat) (v : Lane) : Buffer := ⟨b.lanes.setIfInBounds i v⟩

/-- `S[k] = A[k div 8][8*j+7 : 8*j]` with `j = k mod 8` (10_state.md R14, 20_memory.md R30). -/
def Buffer.byte (b : Buffer) (k : Nat) : Byte := (b.lane (k / 8)).extractLsb' (8 * (k % 8)) 8

/-- A lane with its byte `j` replaced. -/
def laneWithByte (a : Lane) (j : Nat) (v : Byte) : Lane :=
  (a &&& ~~~((0xFF : Lane) <<< (8 * j))) ||| (v.zeroExtend 64 <<< (8 * j))

/-- `S[k] <- v`: exactly bits `8*(k mod 8)+7` down to `8*(k mod 8)` of lane `A[k div 8]` change (20_memory.md R31). -/
def Buffer.setByte (b : Buffer) (k : Nat) (v : Byte) : Buffer :=
  b.setLane (k / 8) (laneWithByte (b.lane (k / 8)) (k % 8) v)

/-- `S[k] <- S[k] ^ v`. -/
def Buffer.xorByte (b : Buffer) (k : Nat) (v : Byte) : Buffer := b.setByte k (b.byte k ^^^ v)

/-- `[S[0], S[1], ..., S[k-1]]`. -/
def Buffer.firstBytes (b : Buffer) (k : Nat) : List Byte := (List.range k).map b.byte

/-- `S[k] <- 0x00` for all `k` in 0..199. -/
def Buffer.zero : Buffer := ⟨Vector.replicate 25 0⟩

/-! ## The context -/

/-- The idle context with phase `p`: `S` all zero and `RATE = CAPACITY = SUFFIX = OFFSET = OBS = MODE = 0`
(10_state.md R21). What `FINAL` and `HASH` leave (`p` = Finalized, R96, R99), and every `ParameterError` and reset
(`p` = Uninitialized, 60_exceptions.md R113, 70_reset_and_hazards.md R125). -/
def Context.cleared (p : Phase) : Context where
  buffer := .zero
  rate := 0
  capacity := 0
  suffix := 0
  offset := 0
  mode := .sha3
  obs := 0
  phase := p

/-- `rateBytes = RATE / 8`, not a register (10_state.md R17). -/
def Context.rateBytes (c : Context) : Nat := c.rate.toNat / 8

/-! ## Ending a command (30_encoding.md R54, 60_exceptions.md R107) -/

/-- The command ends: the context becomes `c` and the response `r` is given. -/
def State.answer (s : State) (c : Context) (r : Response) : State :=
  { s with ctx := c, responses := s.responses ++ [r] }

/-- `return (OK, output)` with context `c`. -/
def State.complete (s : State) (c : Context) (output : List Byte) : State := s.answer c ⟨.ok, output⟩

/-! ## Taking an error -/

/-- `raise ParameterError(cause)`: the whole context is reset, `PHASE = Uninitialized`, then `(ERR_PARAM, [])`
(60_exceptions.md R113). The cause is not recorded and not reported (R108, R109). -/
def State.raiseParameterError (s : State) (_cause : ParameterCause) : State :=
  s.answer (.cleared .uninitialized) ⟨.errParam, []⟩

/-- `raise UsageError`: no state changes at all, `(ERR_USAGE, [])` (60_exceptions.md R114). -/
def State.raiseUsageError (s : State) : State := s.answer s.ctx ⟨.errUsage, []⟩

/-- `raise IllegalCommand`: no state changes at all, `(ERR_ILLEGAL, [])` (60_exceptions.md R115). Nothing records
why the transaction was illegal (R109). -/
def State.raiseIllegalCommand (s : State) (_why : DecodeError) : State := s.answer s.ctx ⟨.errIllegal, []⟩

/-- A command goes on with what a micro-operation handed back, or ends there (00_scope.md R10). -/
def State.continueWith {α : Type} (s : State) (m : MicroResult α) (k : α → Outcome) : Outcome :=
  match m with
  | .done a => k a
  | .raised cause => .next (s.raiseParameterError cause)
  | .fault reason => .fault reason
  | .refused reason => .refused reason

/-! ## The command port and reset -/

/-- Reset: every register takes its value of 10_state.md R27 (70_reset_and_hazards.md R125). No response is given. -/
def State.applyReset (s : State) : State := { s with ctx := .cleared .uninitialized }

/-- What the host does next, and the machine with that taken off its queue; `none` while the host does nothing. -/
def State.takeEvent (s : State) : Option (HostEvent × State) :=
  match s.pending with
  | [] => none
  | e :: rest => some (e, { s with pending := rest })

/-- The host presents `t` as its next act. -/
def State.present (s : State) (t : Transaction) : State := { s with pending := .command t :: s.pending }

end Sys2Proof.Machine
end

