-- ==== Sys2Proof/Machine/Permutation.lean ====
section
/-! DEFINITION. The sub-block `keccak_f1600_permutation`: the permutation Keccak-f[1600] on the 25 lanes
(40_permutation.md R59 to R68). Pure and total: no error, no register but the buffer (R59). The three tables are the
ones the rules print (R64, R65, R67). -/

namespace Sys2Proof.Machine

/-! ## Tables -/

/-- `RHO_OFFSET[0..24]` (R64). -/
def rhoTable : List Nat :=
  [0, 1, 62, 28, 27,
   36, 44, 6, 55, 20,
   3, 10, 43, 25, 39,
   41, 45, 15, 21, 8,
   18, 2, 61, 56, 14]

def rhoOffset (i : Nat) : Nat := rhoTable.getD i 0

/-- `PI_DEST[0..24]`: the lane at position `i` moves to position `PI_DEST[i]` (R65). -/
def piTable : List Nat :=
  [0, 10, 20, 5, 15,
   16, 1, 11, 21, 6,
   7, 17, 2, 12, 22,
   23, 8, 18, 3, 13,
   14, 24, 9, 19, 4]

def piDest (i : Nat) : Nat := piTable.getD i 0

/-- `RC`, laid out as R67 prints it: the row of `k` in 0..7 holds `RC[k]`, `RC[k + 8]` and `RC[k + 16]`. -/
def roundConstantRows : List (Lane × Lane × Lane) :=
  [(0x0000000000000001, 0x000000000000008A, 0x8000000000008002),
   (0x0000000000008082, 0x0000000000000088, 0x8000000000000080),
   (0x800000000000808A, 0x0000000080008009, 0x000000000000800A),
   (0x8000000080008000, 0x000000008000000A, 0x800000008000000A),
   (0x000000000000808B, 0x000000008000808B, 0x8000000080008081),
   (0x0000000080000001, 0x800000000000008B, 0x8000000000008080),
   (0x8000000080008081, 0x8000000000008089, 0x0000000080000001),
   (0x8000000000008009, 0x8000000000008003, 0x8000000080008008)]

/-- `RC[r]` (R67): row `r mod 8`, column `r div 8` of the printed table. No rule names an `r` outside 0..23. -/
def roundConstant (r : Nat) : Lane :=
  let row := roundConstantRows.getD (r % 8) (0, 0, 0)
  match r / 8 with
  | 0 => row.1
  | 1 => row.2.1
  | 2 => row.2.2
  | _ => 0

/-! ## The five steps -/

/-- `C[x]`, the parity of column `x`, for `x` in 0..4 (R63). -/
def columnParities (b : Buffer) : List Lane :=
  (List.range 5).map fun x => b.laneAt x 0 ^^^ b.laneAt x 1 ^^^ b.laneAt x 2 ^^^ b.laneAt x 3 ^^^ b.laneAt x 4

/-- `D[x] = rotl64(C[(x+1) mod 5], 1) ^ C[(x+4) mod 5]`, for `x` in 0..4 (R63). -/
def thetaEffect (c : List Lane) : List Lane :=
  (List.range 5).map fun x => rotl64 (c.getD ((x + 1) % 5) 0) 1 ^^^ c.getD ((x + 4) % 5) 0

/-- `THETA` (R63): every `C` and `D` is computed before any lane is written. -/
def theta (b : Buffer) : Buffer :=
  .tabulate fun i => b.lane i ^^^ (thetaEffect (columnParities b)).getD (i % 5) 0

/-- `RHO` (R64): `A[i] <- rotl64(A[i], RHO_OFFSET[i])`. -/
def rho (b : Buffer) : Buffer := .tabulate fun i => rotl64 (b.lane i) (rhoOffset i)

/-- `PI` (R65): `B[PI_DEST[i]] <- A[i]` for every `i`, so position `j` receives the lane at the `i` with
`PI_DEST[i] = j`; all reads come before any write. -/
def pi (b : Buffer) : Buffer := .tabulate fun j => b.lane (piTable.idxOf j)

/-- `CHI` (R66): the five lanes of a row are updated simultaneously from the row's old values. -/
def chi (b : Buffer) : Buffer :=
  .tabulate fun i =>
    b.lane i ^^^ (~~~ b.laneAt ((i % 5 + 1) % 5) (i / 5) &&& b.laneAt ((i % 5 + 2) % 5) (i / 5))

/-- `IOTA(r)` (R67): `A[0] <- A[0] ^ RC[r]`. -/
def iota (r : Nat) (b : Buffer) : Buffer := b.setLane 0 (b.lane 0 ^^^ roundConstant r)

/-- `ROUND(r)` (R62): THETA, RHO, PI, CHI, IOTA in this order. -/
def round (r : Nat) (b : Buffer) : Buffer := iota r (chi (pi (rho (theta b))))

/-- `PERMUTE` (R61): `ROUND(0)` to `ROUND(23)` in increasing `r`. -/
def permute (b : Buffer) : Buffer := (List.range Config.roundCount).foldl (fun b r => round r b) b

/-! ## The fused form of RHO and PI (R68) -/

def chainPositions : List Nat :=
  [10, 7, 11, 17, 18, 3, 5, 16, 8, 21, 24, 4, 15, 23, 19, 13, 12, 2, 20, 14, 22, 9, 6, 1]

def chainRotations : List Nat :=
  [1, 3, 6, 10, 15, 21, 28, 36, 45, 55, 2, 14, 27, 41, 56, 8, 25, 43, 62, 18, 39, 61, 20, 44]

/-- One step of the chain: the carried lane goes, rotated, to position `j`, and the lane there is carried on (R68). -/
def chainStep (p : Buffer × Lane) (link : Nat × Nat) : Buffer × Lane :=
  (p.1.setLane link.1 (rotl64 p.2 link.2), p.1.lane link.1)

/-- `RHOPI` (R68): walk the 24-cycle carrying one lane, from `A[1]`. -/
def rhoPi (b : Buffer) : Buffer := ((chainPositions.zip chainRotations).foldl chainStep (b, b.lane 1)).1

/-! ## The rules that generate the tables -/

/-- The walk of R64 over lane coordinates: the pairs `(position, offset)` for `t = 0..23`, from `(x, y)`. -/
def rhoWalk (steps t x y : Nat) : List (Nat × Nat) :=
  match steps with
  | 0 => []
  | k + 1 => (x + 5 * y, (t + 1) * (t + 2) / 2 % 64) :: rhoWalk k (t + 1) y ((2 * x + 3 * y) % 5)

/-- One shift of R67's register: `R <- ((R << 1) ^ (0x71 if bit 7 of R was 1 else 0)) mod 256`. -/
def lfsrNext (r : Byte) : Byte := (r <<< 1) ^^^ (if r.getLsbD 7 then 0x71 else 0)

/-- `k` shifts of R67's register. -/
def lfsrAfter (k : Nat) (r : Byte) : Byte :=
  match k with
  | 0 => r
  | k + 1 => lfsrAfter k (lfsrNext r)

/-- `RC[r]` as R67 generates it: for `j` in 0..6, bit `2^j - 1` is set if bit 0 of the register is 1 after
`7*r + j` shifts from `0x01`. -/
def generatedRoundConstant (r : Nat) : Lane :=
  (List.range 7).foldl
    (fun acc j => if (lfsrAfter (7 * r + j) 0x01).getLsbD 0 then acc ||| (1 <<< (2 ^ j - 1)) else acc) 0

end Sys2Proof.Machine
end

