-- ==== Sys2Proof/Machine/Absorb.lean ====
section
/-! DEFINITION. The sub-block `sponge_absorb_fsm`: the micro-operation `ABSORB` (41_absorb.md R73 to R77). -/

namespace Sys2Proof.Machine

/-- The loop of `ABSORB` (R75 to R77): each input byte is exclusive-ored into `S[fill]`, `fill` grows by one, and
`PERMUTE` runs with `fill` back at 0 as soon as `fill = rateBytes`. Answers the buffer and the last `fill`. Under
10_state.md R21 `fill < rateBytes <= 200` throughout; in a context R21 excludes, the access that would leave the
state space faults (20_memory.md R28, log 8). -/
def absorbBytes (rateBytes : Nat) : List Byte → Buffer → Nat → MicroResult (Buffer × Nat)
  | [], b, fill => .done (b, fill)
  | x :: rest, b, fill =>
    if fill < Config.stateBytes then
      if fill + 1 = rateBytes then absorbBytes rateBytes rest (permute (b.xorByte fill x)) 0
      else absorbBytes rateBytes rest (b.xorByte fill x) (fill + 1)
    else .fault (.addressOutsideStateSpace fill)

/-- `ABSORB(input, rate, capacity)` (R77): the two checks of R74 before any state is touched, then the loop from
`OFFSET`, then `OFFSET <- fill`. Writes `S` and `OFFSET` only (R73). -/
def absorb (c : Context) (input : List Byte) (rate capacity : Nat) : MicroResult Context :=
  if rate + capacity ≠ Config.stateBits then .raised .rateCapacitySum
  else if rate % 8 ≠ 0 ∨ rate < 8 then .raised .rateNotPositiveMultipleOf8
  else
    match absorbBytes (rate / 8) input c.buffer c.offset.toNat with
    | .done (b, fill) => .done { c with buffer := b, offset := BitVec.ofNat 8 fill }
    | .raised cause => .raised cause
    | .fault reason => .fault reason
    | .refused reason => .refused reason

end Sys2Proof.Machine
end

