-- ==== Sys2Proof/Machine/Operands.lean ====
section
/-! DEFINITION. The operands of the commands: which are legal, and the engine parameters computed from them
(43_streaming_engine.md R91, R96; 30_encoding.md R50: `rate`, `capacity` and `suffix` are never operands). -/

namespace Sys2Proof.Machine

/-- `legal(mode, obs)` (R91): the six parameter sets of 00_scope.md R5. -/
def legal (mode : Mode) (obs : Nat) : Bool :=
  match mode with
  | .sha3 => obs = 224 || obs = 256 || obs = 384 || obs = 512
  | .shake => obs = 128 || obs = 256

/-- The check `mode = SHA3 and outLen != obs / 8` of `FINAL` and `HASH` (R96, R99). -/
def outLenMismatches (mode : Mode) (outLen obs : Nat) : Bool := mode = .sha3 && outLen != obs / 8

/-- `capacity = 2 * outputBitSize` (R91). -/
def capacityOf (obs : Nat) : Nat := 2 * obs

/-- `rate = 1600 - capacity` (R91). -/
def rateOf (obs : Nat) : Nat := Config.stateBits - 2 * obs

/-- `suffix = 0x06` for SHA3, `0x1F` for SHAKE (R91). -/
def suffixOf (mode : Mode) : Byte :=
  match mode with
  | .sha3 => 0x06
  | .shake => 0x1F

/-- What `INIT` and `HASH` write, all but `PHASE` (R91, R99): `S` zero, `OFFSET` 0, and the five parameters. -/
def Context.start (c : Context) (obs : Nat) (mode : Mode) : Context where
  buffer := .zero
  rate := BitVec.ofNat 11 (rateOf obs)
  capacity := BitVec.ofNat 11 (capacityOf obs)
  suffix := suffixOf mode
  offset := 0
  mode := mode
  obs := BitVec.ofNat 10 obs
  phase := c.phase

end Sys2Proof.Machine
end

