-- ==== Sys2Proof/Machine/Flags.lean ====
section
/-! DEFINITION. The block has no flags, condition codes or predicates (10_state.md R23). What stands in their place:
the conditions R23 says the rules test, and the codes of the response status (30_encoding.md R54) and of `PHASE`
(10_state.md R20). -/

namespace Sys2Proof.Machine

/-- `PHASE in {Initialized, Absorbing}`: a computation is live (10_state.md R21). The other two phases are idle. -/
def Phase.isLive : Phase → Bool
  | .uninitialized => false
  | .initialized => true
  | .absorbing => true
  | .finalized => false

/-- `suffix[7] = 1 and OFFSET = rateBytes - 1`: the suffix and the final pad bit would collide (42_squeeze.md R83). -/
def padCollides (suffix : Byte) (offset rateBytes : Nat) : Bool := suffix.getLsbD 7 && offset == rateBytes - 1

/-- The two-bit code of `PHASE` (10_state.md R20). -/
def Phase.code : Phase → BitVec 2
  | .uninitialized => 0
  | .initialized => 1
  | .absorbing => 2
  | .finalized => 3

/-- The status byte (30_encoding.md R54). -/
def Status.code : Status → Byte
  | .ok => 0x00
  | .errParam => 0x01
  | .errUsage => 0x02
  | .errIllegal => 0x03

end Sys2Proof.Machine
end

