-- ==== Sys2Proof/Machine/Squeeze.lean ====
section
/-! DEFINITION. The sub-block `sponge_squeeze_fsm`: the micro-operation `SQUEEZE` (42_squeeze.md R80 to R86). -/

namespace Sys2Proof.Machine

/-- Step 5 (R85, R86): while `rem > 0`, copy `k = min(rateBytes, rem)` bytes from `S[0]` on, and `PERMUTE` if more
output remains. Each turn takes at least one byte, so `turns = rem` turns are enough. -/
def emitBlocks (rateBytes : Nat) : (turns : Nat) → (rem : Nat) → Buffer → Buffer × List Byte
  | 0, _, b => (b, [])
  | turns + 1, rem, b =>
    if rem = 0 then (b, [])
    else if rem - min rateBytes rem = 0 then (b, b.firstBytes (min rateBytes rem))
    else
      ((emitBlocks rateBytes turns (rem - min rateBytes rem) (permute b)).1,
        b.firstBytes (min rateBytes rem) ++
          (emitBlocks rateBytes turns (rem - min rateBytes rem) (permute b)).2)

/-- Steps 1 to 4 (R82 to R85): suffix, the collision edge case, the final pad bit, the unconditional `PERMUTE`. -/
def padAndPermute (b : Buffer) (offset rateBytes : Nat) (suffix : Byte) : Buffer :=
  let suffixed := b.xorByte offset suffix
  let spaced := if padCollides suffix offset rateBytes then permute suffixed else suffixed
  permute (spaced.xorByte (rateBytes - 1) 0x80)

/-- The precondition of `SQUEEZE` (R81). -/
def squeezeReady (rate offset : Nat) : Bool :=
  decide (rate % 8 = 0 ∧ 8 ≤ rate ∧ rate ≤ Config.stateBits ∧ offset < rate / 8)

/-- `SQUEEZE(outLen, rate, suffix)` (R86): answers the buffer it leaves and the output. Reads `S` and `OFFSET`, writes
`S` only (R80). Outside R81's precondition "A model must refuse such a call, not compute something". -/
def squeeze (c : Context) (outLen rate : Nat) (suffix : Byte) : MicroResult (Buffer × List Byte) :=
  if squeezeReady rate c.offset.toNat then
    .done (emitBlocks (rate / 8) outLen outLen (padAndPermute c.buffer c.offset.toNat (rate / 8) suffix))
  else .refused .squeezePrecondition

end Sys2Proof.Machine
end

