-- ==== Sys2Proof/Machine/Engine.lean ====
section
/-! DEFINITION. The sub-block `streaming_hash_engine`: the meanings of the four host commands
(43_streaming_engine.md R89 to R99). Each makes the phase check of R90 first and its operand checks next, in the
order of 60_exceptions.md R116. -/

namespace Sys2Proof.Machine

/-- `INIT` (R91): accepted in every phase (R90, R92). -/
def execInit (outputBitSize : Nat) (mode : Mode) (s : State) : Outcome :=
  if legal mode outputBitSize then
    .next (s.complete { s.ctx.start outputBitSize mode with phase := .initialized } [])
  else .next (s.raiseParameterError .unsupportedOutputBitSize)

/-- `UPDATE` (R93): `UsageError` in an idle phase (R90); otherwise `ABSORB(data, RATE, CAPACITY)` and
`PHASE <- Absorbing`. -/
def execUpdate (data : List Byte) (s : State) : Outcome :=
  if s.ctx.phase.isLive then
    s.continueWith (absorb s.ctx data s.ctx.rate.toNat s.ctx.capacity.toNat) fun c =>
      .next (s.complete { c with phase := .absorbing } [])
  else .next s.raiseUsageError

/-- `FINAL` (R96): `UsageError` in an idle phase (R90); under SHA3 `outLen` must be `OBS / 8`; then
`SQUEEZE(outLen, RATE, SUFFIX)`, and the context is cleared with `PHASE <- Finalized`. -/
def execFinal (outLen : Nat) (s : State) : Outcome :=
  if s.ctx.phase.isLive then
    if outLenMismatches s.ctx.mode outLen s.ctx.obs.toNat then .next (s.raiseParameterError .outLenMismatch)
    else
      s.continueWith (squeeze s.ctx outLen s.ctx.rate.toNat s.ctx.suffix) fun r =>
        .next (s.complete (.cleared .finalized) r.2)
  else .next s.raiseUsageError

/-- `HASH` (R99): `UsageError` in a live phase (R90); both operand checks before any input byte is absorbed; then as
`INIT`, `UPDATE` and `FINAL` in one transaction. -/
def execHash (outLen : Nat) (input : List Byte) (outputBitSize : Nat) (mode : Mode) (s : State) : Outcome :=
  if s.ctx.phase.isLive then .next s.raiseUsageError
  else if !legal mode outputBitSize then .next (s.raiseParameterError .unsupportedOutputBitSize)
  else if outLenMismatches mode outLen outputBitSize then .next (s.raiseParameterError .outLenMismatch)
  else
    let c := s.ctx.start outputBitSize mode
    s.continueWith (absorb c input c.rate.toNat c.capacity.toNat) fun c' =>
      s.continueWith (squeeze c' outLen c'.rate.toNat c'.suffix) fun r =>
        .next (s.complete (.cleared .finalized) r.2)

/-! ## Pseudo-commands (30_encoding.md R56, 43_streaming_engine.md R102): each is one `HASH` -/

def sha3_224 (m : List Byte) : Instr := .hash 28 m 224 .sha3
def sha3_256 (m : List Byte) : Instr := .hash 32 m 256 .sha3
def sha3_384 (m : List Byte) : Instr := .hash 48 m 384 .sha3
def sha3_512 (m : List Byte) : Instr := .hash 64 m 512 .sha3
def shake128 (m : List Byte) (outLen : Nat) : Instr := .hash outLen m 128 .shake
def shake256 (m : List Byte) (outLen : Nat) : Instr := .hash outLen m 256 .shake

end Sys2Proof.Machine
end

