-- ==== Sys2Proof/Machine/Dispatch.lean ====
section
/-! DEFINITION. One arm per constructor of Instr. -/

namespace Sys2Proof.Machine

def exec (i : Instr) (s : State) : Host.Outcome State Fault Refusal :=
  match i with
  | .init outputBitSize mode => Sys2Proof.Machine.execInit outputBitSize mode s
  | .update data => Sys2Proof.Machine.execUpdate data s
  | .final outLen => Sys2Proof.Machine.execFinal outLen s
  | .hash outLen input outputBitSize mode => Sys2Proof.Machine.execHash outLen input outputBitSize mode s

end Sys2Proof.Machine
end

