-- ==== Sys2Proof/Machine/Step.lean ====
section
/-! DEFINITION. One step: what the host does next is carried out whole (00_scope.md R6, 20_memory.md R37). -/

namespace Sys2Proof.Machine

/-- One host event. Nothing pending: the block does nothing (00_scope.md R11). A command transaction is decoded from
the bits presented with it (30_encoding.md R43) and runs to its response, or is illegal (R51); reset resets (R125). -/
def step (s : State) : Host.Outcome State Fault Refusal :=
  match s.takeEvent with
  | none => .next s
  | some (.reset, s') => .next s'.applyReset
  | some (.command t, s') =>
    match decode t with
    | .ok i => exec i s'
    | .error why => .next (s'.raiseIllegalCommand why)

/-- The host presents the `nbits` low bits `w` as the next command word, with an empty payload, before anything else
it was going to do. There is no program counter and no stored program (10_state.md R22): this is how a command comes
to run (log 5). -/
def State.withFetchWord (s : State) (nbits w : Nat) : State := s.present (tableTransaction nbits w)

end Sys2Proof.Machine
end

