-- ==== Sys2Proof/Machine/AbsorbFsm.lean ====
section
/-! DEFINITION. `ABSORB` as a state machine (41_absorb.md R78), beside the big-step form the commands use. The
micro-states are locals of one call. The field `permutes` counts visits of `A_PERMUTE`: the number of `PERMUTE` calls
of R79 law 2, instrumentation and not state of the block (log 16). -/

namespace Sys2Proof.Machine

/-- The micro-states of R78. `done` and `error` are the ends. -/
inductive AbsorbMicro where
  | check
  | next
  | xor
  | permute
  | done
  | error (cause : ParameterCause)
  deriving DecidableEq, Repr

structure AbsorbFsm where
  micro : AbsorbMicro
  buffer : Buffer
  offset : BitVec 8
  fill : Nat
  j : Nat
  permutes : Nat
  deriving DecidableEq, Repr

/-- A call starts in `A_CHECK` on the shared state. -/
def AbsorbFsm.start (c : Context) : AbsorbFsm where
  micro := .check
  buffer := c.buffer
  offset := c.offset
  fill := 0
  j := 0
  permutes := 0

/-- One row of R78's table. The action of `A_DONE` is `OFFSET <- fill`, which can be repeated without effect. -/
def AbsorbFsm.step (input : List Byte) (rate capacity : Nat) (m : AbsorbFsm) : AbsorbFsm :=
  match m.micro with
  | .check =>
    if rate + capacity ≠ Config.stateBits then { m with micro := .error .rateCapacitySum }
    else if rate % 8 ≠ 0 ∨ rate < 8 then { m with micro := .error .rateNotPositiveMultipleOf8 }
    else { m with micro := .next, fill := m.offset.toNat, j := 0 }
  | .next => { m with micro := if m.j < input.length then .xor else .done }
  | .xor =>
    { m with
      micro := if m.fill + 1 = rate / 8 then .permute else .next
      buffer := m.buffer.xorByte m.fill (input.getD m.j 0)
      fill := m.fill + 1
      j := m.j + 1 }
  | .permute => { m with micro := .next, buffer := Machine.permute m.buffer, fill := 0, permutes := m.permutes + 1 }
  | .done => { m with offset := BitVec.ofNat 8 m.fill }
  | .error _ => m

/-- `k` micro-steps. -/
def AbsorbFsm.run (input : List Byte) (rate capacity : Nat) : Nat → AbsorbFsm → AbsorbFsm
  | 0, m => m
  | k + 1, m => AbsorbFsm.run input rate capacity k (m.step input rate capacity)

end Sys2Proof.Machine
end

