-- ==== Sys2Proof/Machine/SqueezeFsm.lean ====
section
/-! DEFINITION. `SQUEEZE` as a state machine (42_squeeze.md R87), beside the big-step form the commands use. The
field `permutes` counts `PERMUTE` calls (R88 law 2): instrumentation and not state of the block (log 16). -/

namespace Sys2Proof.Machine

/-- The micro-states of R87; `done` is the end. -/
inductive SqueezeMicro where
  | suffix
  | edge
  | pad
  | permute
  | test
  | emit
  | done
  deriving DecidableEq, Repr

structure SqueezeFsm where
  micro : SqueezeMicro
  buffer : Buffer
  rem : Nat
  out : List Byte
  permutes : Nat
  deriving DecidableEq, Repr

/-- A call starts in `Q_SUFFIX` with `rem = outLen`. -/
def SqueezeFsm.start (c : Context) (outLen : Nat) : SqueezeFsm where
  micro := .suffix
  buffer := c.buffer
  rem := outLen
  out := []
  permutes := 0

/-- One row of R87's table. -/
def SqueezeFsm.step (offset rateBytes : Nat) (suffix : Byte) (m : SqueezeFsm) : SqueezeFsm :=
  match m.micro with
  | .suffix =>
    { m with
      micro := if padCollides suffix offset rateBytes then .edge else .pad
      buffer := m.buffer.xorByte offset suffix }
  | .edge => { m with micro := .pad, buffer := Machine.permute m.buffer, permutes := m.permutes + 1 }
  | .pad => { m with micro := .permute, buffer := m.buffer.xorByte (rateBytes - 1) 0x80 }
  | .permute => { m with micro := .test, buffer := Machine.permute m.buffer, permutes := m.permutes + 1 }
  | .test => { m with micro := if 0 < m.rem then .emit else .done }
  | .emit =>
    { m with
      micro := if 0 < m.rem - min rateBytes m.rem then .permute else .done
      rem := m.rem - min rateBytes m.rem
      out := m.out ++ m.buffer.firstBytes (min rateBytes m.rem) }
  | .done => m

/-- `k` micro-steps. -/
def SqueezeFsm.run (offset rateBytes : Nat) (suffix : Byte) : Nat → SqueezeFsm → SqueezeFsm
  | 0, m => m
  | k + 1, m => SqueezeFsm.run offset rateBytes suffix k (m.step offset rateBytes suffix)

end Sys2Proof.Machine
end

