-- ==== Sys2Proof/Safety.lean ====
section
/-! DEFINITION. The words the claims use: the context invariant of 10_state.md R21, which transactions are illegal, the
lifecycle table, two states a host cannot tell apart, and the sponge as a function of the padded message in whole blocks (00_scope.md R12 "Block",
"Multi-rate padding"), written without the buffer offset so that the streaming engine can be compared with it. -/

namespace Sys2Proof.Machine

/-! ## The invariant of R21 -/

/-- "idle" of R21. -/
structure Context.Idle (c : Context) : Prop where
  phase : c.phase = .uninitialized ∨ c.phase = .finalized
  bytes_zero : ∀ k < Config.stateBytes, c.buffer.byte k = 0
  rate : c.rate = 0
  capacity : c.capacity = 0
  suffix : c.suffix = 0
  offset : c.offset = 0
  obs : c.obs = 0
  mode : c.mode = .sha3

/-- "live" of R21. -/
structure Context.Live (c : Context) : Prop where
  phase : c.phase = .initialized ∨ c.phase = .absorbing
  parameters : legal c.mode c.obs.toNat = true
  capacity : c.capacity.toNat = 2 * c.obs.toNat
  rate : c.rate.toNat = 1600 - c.capacity.toNat
  suffix : c.suffix = if c.mode = .sha3 then 0x06 else 0x1F
  offset : c.offset.toNat < c.rate.toNat / 8
  fresh : c.phase = .initialized → (∀ k < Config.stateBytes, c.buffer.byte k = 0) ∧ c.offset = 0

/-- The context invariant (R21). The two cases exclude each other by their phases. -/
def Context.Inv (c : Context) : Prop := c.Idle ∨ c.Live

def State.Inv (s : State) : Prop := s.ctx.Inv

/-- The six legal pairs of 00_scope.md R5, spelled out. -/
def LegalPair (m : Mode) (n : Nat) : Prop :=
  (m = .sha3 ∧ (n = 224 ∨ n = 256 ∨ n = 384 ∨ n = 512)) ∨ (m = .shake ∧ (n = 128 ∨ n = 256))

/-! ## Illegal transactions (30_encoding.md R51) -/

/-- Items 1 to 3 of R51, about the command word. -/
def IllegalWord (w : CommandWord) : Prop :=
  (opcodeField w = 0x00 ∨ (0x05 ≤ opcodeField w ∧ opcodeField w ≤ 0xFF)) ∨
  rsvField w ≠ 0 ∨
  ((opcodeField w = 0x01 ∧ lenField w ≠ 0) ∨
    (opcodeField w = 0x02 ∧ (modeField w ≠ 0 ∨ obsField w ≠ 0 ∨ lenField w ≠ 0)) ∨
    (opcodeField w = 0x03 ∧ (modeField w ≠ 0 ∨ obsField w ≠ 0)))

/-- R51: one of the four items holds. -/
def IllegalTransaction (t : Transaction) : Prop :=
  IllegalWord t.word ∨ ((opcodeField t.word = 0x01 ∨ opcodeField t.word = 0x03) ∧ t.payload ≠ [])

/-! ## The lifecycle table (43_streaming_engine.md R90) -/

/-- Which phase a command leaves on status `OK`, by the phase before; `none` where it is a `UsageError`. -/
def lifecycle : Instr → Phase → Option Phase
  | .init _ _, _ => some .initialized
  | .update _, .initialized => some .absorbing
  | .update _, .absorbing => some .absorbing
  | .update _, .uninitialized => none
  | .update _, .finalized => none
  | .final _, .initialized => some .finalized
  | .final _, .absorbing => some .finalized
  | .final _, .uninitialized => none
  | .final _, .finalized => none
  | .hash _ _ _ _, .uninitialized => some .finalized
  | .hash _ _ _ _, .finalized => some .finalized
  | .hash _ _ _ _, .initialized => none
  | .hash _ _ _ _, .absorbing => none

/-- The number of output bytes of a command on status `OK` (30_encoding.md R54). -/
def outputLength : Instr → Nat
  | .init _ _ => 0
  | .update _ => 0
  | .final outLen => outLen
  | .hash outLen _ _ _ => outLen

/-! ## The parity of a column -/

/-- The parity `C[x]` of column `x` (40_permutation.md R63). -/
def columnParity (b : Buffer) (x : Nat) : Lane :=
  b.laneAt x 0 ^^^ b.laneAt x 1 ^^^ b.laneAt x 2 ^^^ b.laneAt x 3 ^^^ b.laneAt x 4

/-! ## What a host sees -/

/-- Two machines that differ at most in registers the block never reads in an idle phase
(70_reset_and_hazards.md R125): same host events to come, same responses so far, and either the same context or the
same idle `PHASE`. -/
def State.SameToHost (s t : State) : Prop :=
  s.pending = t.pending ∧ s.responses = t.responses ∧
    (s.ctx = t.ctx ∨ (s.ctx.phase = t.ctx.phase ∧ s.ctx.phase.isLive = false))

/-! ## The sponge in whole blocks -/

/-- The message followed by the suffix byte and the final pad bit at the rate boundary (00_scope.md R12 "Multi-rate
padding"; when one byte is left they share it, 42_squeeze.md R83), for a suffix with bit 7 clear. -/
def paddedMessage (rateBytes : Nat) (suffix : Byte) (m : List Byte) : List Byte :=
  if rateBytes - m.length % rateBytes = 1 then m ++ [suffix ^^^ 0x80]
  else m ++ suffix :: List.replicate (rateBytes - m.length % rateBytes - 2) 0 ++ [0x80]

/-- Block `n` of a byte sequence: `rateBytes` consecutive bytes (R12 "Block"). -/
def blockAt (rateBytes : Nat) (m : List Byte) (n : Nat) : List Byte := (m.drop (rateBytes * n)).take rateBytes

/-- Exclusive-or a byte sequence into `S[0], S[1], ...`. -/
def xorBytes (b : Buffer) (bytes : List Byte) : Buffer :=
  (List.range bytes.length).foldl (fun b k => b.xorByte k (bytes.getD k 0)) b

/-- Absorb whole blocks: exclusive-or each into the rate region and permute. -/
def absorbBlocks (rateBytes : Nat) (m : List Byte) (b : Buffer) : Buffer :=
  (List.range (m.length / rateBytes)).foldl (fun b n => permute (xorBytes b (blockAt rateBytes m n))) b

/-- `PERMUTE` run `n` times. -/
def permuteTimes : Nat → Buffer → Buffer
  | 0, b => b
  | n + 1, b => permuteTimes n (permute b)

/-- Byte `p` of the output: byte `p mod rateBytes` of the rate region after `p div rateBytes` further permutations. -/
def outputByte (rateBytes : Nat) (b : Buffer) (p : Nat) : Byte :=
  (permuteTimes (p / rateBytes) b).byte (p % rateBytes)

/-- The output of the sponge: absorb the padded message from the all-zero state, then `outLen` output bytes. -/
def spongeOutput (rateBytes : Nat) (suffix : Byte) (m : List Byte) (outLen : Nat) : List Byte :=
  (List.range outLen).map (outputByte rateBytes (absorbBlocks rateBytes (paddedMessage rateBytes suffix m) .zero))

end Sys2Proof.Machine
end

