-- ==== Sys2Proof/Certificates/Slice0/Obligations.lean ====
section
/-! DEFINITION. The statements about the sponge hash engine, each from the rules its docstring names. Registers are
compared as the naturals the rules use (00_scope.md R7). -/

open Sys2Proof Sys2Proof.Machine

/-! ## Encoding -/

/-- 30_encoding.md R58 and R56: words written out from the fields of R44 decode to the commands they stand for. -/
def Obligations.SampleWordsDecode : Prop :=
  decode ⟨0x0100010000000000, []⟩ = .ok (.init 256 .sha3) ∧
  decode ⟨0x0101008000000000, []⟩ = .ok (.init 128 .shake) ∧
  decode ⟨0x010000C800000000, []⟩ = .ok (.init 200 .sha3) ∧
  decode ⟨0x0200000000000000, [0x61]⟩ = .ok (.update [0x61]) ∧
  decode ⟨0x0300000000000020, []⟩ = .ok (.final 32) ∧
  decode ⟨0x040000E00000001C, [0x61]⟩ = .ok (sha3_224 [0x61]) ∧
  decode ⟨0x04010080000000C8, []⟩ = .ok (shake128 [] 200)

/-- R44 to R50: no bit of an encoding is dropped. Every command whose operands fit their fields comes back from its
own transaction. -/
def Obligations.DecodeOfEncode : Prop :=
  ∀ i : Instr, i.wf = true → decode (encode i) = .ok i

/-- R43 to R51, the other direction: every legal transaction is the encoding of the command it decodes to, and that
command is well formed; so no two transactions decode to one command. -/
def Obligations.EncodeOfDecode : Prop :=
  ∀ (t : Transaction) (i : Instr), decode t = .ok i → i.wf = true ∧ encode i = t

/-- R51, R115: the decoder rejects exactly the transactions one of the four items makes illegal; such a transaction
changes no register and is answered `(ERR_ILLEGAL, [])`; and items 1 to 3 say the same as matching none of the four
patterns of R46. -/
def Obligations.IllegalExactlyByItems : Prop :=
  (∀ t : Transaction, (∃ e, decode t = .error e) ↔ IllegalTransaction t) ∧
  (∀ (s : State) (t : Transaction) (rest : List HostEvent),
    s.pending = .command t :: rest → IllegalTransaction t →
      ∃ u, step s = .next u ∧ u.ctx = s.ctx ∧ u.pending = rest ∧ u.responses = s.responses ++ [⟨.errIllegal, []⟩]) ∧
  (∀ w : CommandWord, IllegalWord w ↔ ∀ p ∈ opcodePatterns, p.selects w = false)

/-- R46: the four patterns are pairwise disjoint. -/
def Obligations.PatternsPairwiseDisjoint : Prop :=
  ∀ w : CommandWord, ∀ p ∈ opcodePatterns, ∀ q ∈ opcodePatterns,
    p.selects w = true → q.selects w = true → p = q

/-! ## Reset, the port, one step -/

/-- 10_state.md R27: every register after reset. (That the port starts empty is the model's choice, log 2 and 3, and is
not claimed here.) -/
def Obligations.ResetValues : Prop :=
  (∀ k < 200, State.reset.ctx.buffer.byte k = 0) ∧ State.reset.ctx.rate = 0 ∧ State.reset.ctx.capacity = 0 ∧
    State.reset.ctx.suffix = 0x00 ∧ State.reset.ctx.offset = 0 ∧ State.reset.ctx.mode.bit = 0 ∧
    State.reset.ctx.obs = 0 ∧ State.reset.ctx.phase.code = 0

/-- A step runs the decoded command: it takes the transaction off the host's queue and is `exec` of the command. -/
def Obligations.StepRunsDecodedCommand : Prop :=
  ∀ (s : State) (t : Transaction) (rest : List HostEvent) (i : Instr),
    s.pending = .command t :: rest → decode t = .ok i → step s = exec i { s with pending := rest }

/-- 70_reset_and_hazards.md R125: reset, from any state, gives every register its reset value; no response is given
(R126; that reset is an event between commands is the model's reading, log 4). -/
def Obligations.ResetFromAnyState : Prop :=
  ∀ (s : State) (rest : List HostEvent), s.pending = .reset :: rest →
    ∃ u, step s = .next u ∧ (∀ k < 200, u.ctx.buffer.byte k = 0) ∧ u.ctx.rate = 0 ∧ u.ctx.capacity = 0 ∧
      u.ctx.suffix = 0 ∧ u.ctx.offset = 0 ∧ u.ctx.mode = .sha3 ∧ u.ctx.obs = 0 ∧ u.ctx.phase = .uninitialized ∧
      u.pending = rest ∧ u.responses = s.responses

/-- 00_scope.md R11: the block never acts on its own. With nothing from the host, a step changes nothing. -/
def Obligations.NothingHappensUnasked : Prop :=
  ∀ s : State, s.pending = [] → step s = .next s

/-! ## The four commands -/

/-- 43_streaming_engine.md R91. `INIT`, from ANY state: with a legal pair every register takes the value the rule
gives; with any other pair the whole context is reset (60_exceptions.md R113). The first clause is where `INIT`
completes. -/
def Obligations.InitStartsOrResets : Prop :=
  ∀ (n : Nat) (m : Mode) (s : State),
    (LegalPair m n →
      ∃ t, exec (.init n m) s = .next t ∧
        (∀ k < 200, t.ctx.buffer.byte k = 0) ∧ t.ctx.offset = 0 ∧ t.ctx.mode = m ∧ t.ctx.obs.toNat = n ∧
        t.ctx.capacity.toNat = 2 * n ∧ t.ctx.rate.toNat = 1600 - 2 * n ∧
        t.ctx.suffix = (if m = .sha3 then 0x06 else 0x1F) ∧ t.ctx.phase = .initialized ∧
        t.pending = s.pending ∧ t.responses = s.responses ++ [⟨.ok, []⟩]) ∧
    (¬ LegalPair m n →
      ∃ t, exec (.init n m) s = .next t ∧ t.ctx.Idle ∧ t.ctx.phase = .uninitialized ∧
        t.pending = s.pending ∧ t.responses = s.responses ++ [⟨.errParam, []⟩])

/-- R92: `INIT` abandons whatever was in progress: the context it leaves does not depend on the context before. -/
def Obligations.InitForgetsThePast : Prop :=
  ∀ (n : Nat) (m : Mode) (s u t v : State),
    exec (.init n m) s = .next t → exec (.init n m) u = .next v → t.ctx = v.ctx

/-- R93. `UPDATE` on a live context completes: `S` and `OFFSET` are what `ABSORB(data, RATE, CAPACITY)` leaves,
`PHASE = Absorbing`, no other register changes (its frame), and the response is `(OK, [])`. In an idle phase it is a
`UsageError`: nothing changes. -/
def Obligations.UpdateAbsorbs : Prop :=
  ∀ (data : List Byte) (s : State),
  (s.ctx.Live →
    ∃ c t, absorb s.ctx data s.ctx.rate.toNat s.ctx.capacity.toNat = .done c ∧
      exec (.update data) s = .next t ∧
      t.ctx.buffer = c.buffer ∧ t.ctx.offset = c.offset ∧ t.ctx.phase = .absorbing ∧
      t.ctx.rate = s.ctx.rate ∧ t.ctx.capacity = s.ctx.capacity ∧ t.ctx.suffix = s.ctx.suffix ∧
      t.ctx.mode = s.ctx.mode ∧ t.ctx.obs = s.ctx.obs ∧
      t.pending = s.pending ∧ t.responses = s.responses ++ [⟨.ok, []⟩]) ∧
  (s.ctx.phase = .uninitialized ∨ s.ctx.phase = .finalized →
    ∃ t, exec (.update data) s = .next t ∧ t.ctx = s.ctx ∧
      t.pending = s.pending ∧ t.responses = s.responses ++ [⟨.errUsage, []⟩])

/-- 41_absorb.md R75, R76: what `UPDATE` of one byte does to `S` and `OFFSET`: the byte is exclusive-ored into
`S[OFFSET]`; when that completes the block the permutation runs and `OFFSET` goes back to 0, otherwise `OFFSET` grows
by one. -/
def Obligations.UpdateOneByte : Prop :=
  ∀ (x : Byte) (s : State), s.ctx.Live →
    ∃ t, exec (.update [x]) s = .next t ∧
      (s.ctx.offset.toNat + 1 = s.ctx.rate.toNat / 8 →
        t.ctx.buffer = permute (s.ctx.buffer.xorByte s.ctx.offset.toNat x) ∧ t.ctx.offset = 0) ∧
      (s.ctx.offset.toNat + 1 ≠ s.ctx.rate.toNat / 8 →
        t.ctx.buffer = s.ctx.buffer.xorByte s.ctx.offset.toNat x ∧ t.ctx.offset.toNat = s.ctx.offset.toNat + 1)

/-- 41_absorb.md R75, R79 law 4; 20_memory.md R33: a payload that does not complete the block changes exactly the
bytes `S[OFFSET .. OFFSET+n-1]`, each by exclusive-or with its payload byte. Every other byte of the state space, all
of the capacity region among them, reads as before. -/
def Obligations.UpdateInsideABlock : Prop :=
  ∀ (data : List Byte) (s : State), s.ctx.Live → s.ctx.offset.toNat + data.length < s.ctx.rate.toNat / 8 →
    ∃ t, exec (.update data) s = .next t ∧
      t.ctx.offset.toNat = s.ctx.offset.toNat + data.length ∧
      (∀ j < data.length, t.ctx.buffer.byte (s.ctx.offset.toNat + j) =
        s.ctx.buffer.byte (s.ctx.offset.toNat + j) ^^^ data.getD j 0) ∧
      (∀ k < 200, k < s.ctx.offset.toNat ∨ s.ctx.offset.toNat + data.length ≤ k →
        t.ctx.buffer.byte k = s.ctx.buffer.byte k)

/-- 41_absorb.md R79 law 1: the offset after an accepted `UPDATE` of any length. -/
def Obligations.UpdateOffsetLaw : Prop :=
  ∀ (data : List Byte) (s t : State), s.ctx.Live → exec (.update data) s = .next t →
    t.ctx.offset.toNat = (s.ctx.offset.toNat + data.length) % (s.ctx.rate.toNat / 8)

/-- R95 and 41_absorb.md R79 law 3, chunking invariance: `update(p); update(q)` leaves the context of
`update(p ++ q)`. -/
def Obligations.UpdateChunking : Prop :=
  ∀ (p q : List Byte) (s : State), s.ctx.Live →
    ∃ t u v, exec (.update p) s = .next t ∧ exec (.update q) t = .next u ∧
      exec (.update (p ++ q)) s = .next v ∧ u.ctx = v.ctx

/-- R94: an empty `UPDATE` changes at most `PHASE`. -/
def Obligations.EmptyUpdateOnlyNamesThePhase : Prop :=
  ∀ s : State, s.ctx.Live →
    ∃ t, exec (.update []) s = .next t ∧ t.ctx = { s.ctx with phase := .absorbing } ∧
      t.pending = s.pending ∧ t.responses = s.responses ++ [⟨.ok, []⟩]

/-- R96. `FINAL` on a live context. With an acceptable `outLen` it completes: the output is what
`SQUEEZE(outLen, RATE, SUFFIX)` returns, exactly `outLen` bytes, and every register is zeroed with
`PHASE = Finalized`. Under SHA3 with any other `outLen` there is no output and the context is reset. In an idle phase
it is a `UsageError`: nothing changes. -/
def Obligations.FinalSqueezesAndClears : Prop :=
  ∀ (outLen : Nat) (s : State),
  (s.ctx.Live →
    ((s.ctx.mode = .sha3 → outLen = s.ctx.obs.toNat / 8) →
      ∃ b out t, squeeze s.ctx outLen s.ctx.rate.toNat s.ctx.suffix = .done (b, out) ∧ out.length = outLen ∧
        exec (.final outLen) s = .next t ∧ t.ctx.Idle ∧ t.ctx.phase = .finalized ∧
        t.pending = s.pending ∧ t.responses = s.responses ++ [⟨.ok, out⟩]) ∧
    (s.ctx.mode = .sha3 ∧ outLen ≠ s.ctx.obs.toNat / 8 →
      ∃ t, exec (.final outLen) s = .next t ∧ t.ctx.Idle ∧ t.ctx.phase = .uninitialized ∧
        t.pending = s.pending ∧ t.responses = s.responses ++ [⟨.errParam, []⟩])) ∧
  (s.ctx.phase = .uninitialized ∨ s.ctx.phase = .finalized →
    ∃ t, exec (.final outLen) s = .next t ∧ t.ctx = s.ctx ∧
      t.pending = s.pending ∧ t.responses = s.responses ++ [⟨.errUsage, []⟩])

/-- R98: no residue. After `FINAL`, whichever status it ends with, the state buffer is all zero and so is every
parameter register. -/
def Obligations.FinalLeavesNoResidue : Prop :=
  ∀ (outLen : Nat) (s t : State), s.Inv → exec (.final outLen) s = .next t →
    (∀ k < 200, t.ctx.buffer.byte k = 0) ∧ t.ctx.rate = 0 ∧ t.ctx.capacity = 0 ∧ t.ctx.suffix = 0 ∧
      t.ctx.offset = 0 ∧ t.ctx.mode = .sha3 ∧ t.ctx.obs = 0

/-- 60_exceptions.md R112, 70_reset_and_hazards.md R133: after a `FINAL` that failed, a `FINAL` with any `outLen`
(the right one too) is a `UsageError`: the computation is lost. -/
def Obligations.FailedFinalLosesTheComputation : Prop :=
  ∀ (bad outLen : Nat) (s : State), s.ctx.Live → s.ctx.mode = .sha3 → bad ≠ s.ctx.obs.toNat / 8 →
    ∃ t u, exec (.final bad) s = .next t ∧ exec (.final outLen) t = .next u ∧ u.ctx = t.ctx ∧
      u.responses = s.responses ++ [⟨.errParam, []⟩, ⟨.errUsage, []⟩]

/-- 42_squeeze.md R88 law 4, prefix stability: under SHAKE the output for `L` bytes is the first `L` bytes of the
output for any larger request from the same context. -/
def Obligations.ShakePrefixStability : Prop :=
  ∀ (short long : Nat) (s : State), s.ctx.Live → s.ctx.mode = .shake → short ≤ long →
    ∃ t u out, exec (.final short) s = .next t ∧ exec (.final long) s = .next u ∧
      u.responses = s.responses ++ [⟨.ok, out⟩] ∧ t.responses = s.responses ++ [⟨.ok, out.take short⟩]

/-- R99. `HASH` in an idle phase, whatever else the context holds. With both checks passed it completes: the started
context, `ABSORB` of the whole input, `SQUEEZE`, then every register zeroed with `PHASE = Finalized`. With a check
failed the context is reset and there is no output. In a live phase it is a `UsageError`: nothing changes. -/
def Obligations.HashRunsWholeComputation : Prop :=
  ∀ (outLen : Nat) (input : List Byte) (n : Nat) (m : Mode) (s : State),
  (s.ctx.phase = .uninitialized ∨ s.ctx.phase = .finalized →
    (LegalPair m n → (m = .sha3 → outLen = n / 8) →
      ∃ c c' b out t, c.buffer = .zero ∧ c.offset = 0 ∧
        absorb c input (1600 - 2 * n) (2 * n) = .done c' ∧
        squeeze c' outLen (1600 - 2 * n) (if m = .sha3 then 0x06 else 0x1F) = .done (b, out) ∧ out.length = outLen ∧
        exec (.hash outLen input n m) s = .next t ∧ t.ctx.Idle ∧ t.ctx.phase = .finalized ∧
        t.pending = s.pending ∧ t.responses = s.responses ++ [⟨.ok, out⟩]) ∧
    (¬ LegalPair m n ∨ (m = .sha3 ∧ outLen ≠ n / 8) →
      ∃ t, exec (.hash outLen input n m) s = .next t ∧ t.ctx.Idle ∧ t.ctx.phase = .uninitialized ∧
        t.pending = s.pending ∧ t.responses = s.responses ++ [⟨.errParam, []⟩])) ∧
  (s.ctx.phase = .initialized ∨ s.ctx.phase = .absorbing →
    ∃ t, exec (.hash outLen input n m) s = .next t ∧ t.ctx = s.ctx ∧
      t.pending = s.pending ∧ t.responses = s.responses ++ [⟨.errUsage, []⟩])

/-- R100: on an idle context, with operands that pass both checks, `HASH` gives the output and leaves the context of
`init; update; final`. -/
def Obligations.HashEqualsStreamedSequence : Prop :=
  ∀ (outLen : Nat) (input : List Byte) (n : Nat) (m : Mode) (s : State),
    s.ctx.Idle → LegalPair m n → (m = .sha3 → outLen = n / 8) →
      ∃ a b c h out, exec (.init n m) s = .next a ∧ exec (.update input) a = .next b ∧
        exec (.final outLen) b = .next c ∧ exec (.hash outLen input n m) s = .next h ∧ h.ctx = c.ctx ∧
        c.responses = s.responses ++ [⟨.ok, []⟩, ⟨.ok, []⟩, ⟨.ok, out⟩] ∧
        h.responses = s.responses ++ [⟨.ok, out⟩]

/-! ## The lifecycle and the errors, over all commands -/

/-- R90, the whole table, over every context: a command the table refuses changes no register and is answered
`(ERR_USAGE, [])`; a command it accepts is never answered so, leaves the table's phase on `OK`, and leaves
`Uninitialized` on `ERR_PARAM`. -/
def Obligations.LifecycleTable : Prop :=
  ∀ (i : Instr) (s : State),
    (lifecycle i s.ctx.phase = none →
      ∃ t, exec i s = .next t ∧ t.ctx = s.ctx ∧ t.pending = s.pending ∧
        t.responses = s.responses ++ [⟨.errUsage, []⟩]) ∧
    (∀ p t, lifecycle i s.ctx.phase = some p → exec i s = .next t →
      ∃ r, t.responses = s.responses ++ [r] ∧
        ((r.status = .ok ∧ t.ctx.phase = p) ∨ (r.status = .errParam ∧ t.ctx.phase = .uninitialized)))

/-- 60_exceptions.md R113: whenever a command ends with `ERR_PARAM` the whole context has been reset, with
`PHASE = Uninitialized`, and the output is empty. -/
def Obligations.ParameterErrorResetsContext : Prop :=
  ∀ (i : Instr) (s t : State) (r : Response),
    exec i s = .next t → t.responses = s.responses ++ [r] → r.status = .errParam →
      (∀ k < 200, t.ctx.buffer.byte k = 0) ∧ t.ctx.rate = 0 ∧ t.ctx.capacity = 0 ∧ t.ctx.suffix = 0 ∧
        t.ctx.mode = .sha3 ∧ t.ctx.obs = 0 ∧ t.ctx.offset = 0 ∧ t.ctx.phase = .uninitialized ∧ r.output = []

/-- 60_exceptions.md R107, R111; 30_encoding.md R54: on every context that meets the invariant, each command
transaction is taken off the queue and gets exactly one response; its output is complete on `OK` and empty
otherwise. (That no reset takes the response away inside a command, which R126 would let an implementation do, is the
model's reading, log 4.) -/
def Obligations.EveryTransactionGetsOneResponse : Prop :=
  ∀ (s : State) (t : Transaction) (rest : List HostEvent), s.Inv → s.pending = .command t :: rest →
    ∃ u r, step s = .next u ∧ u.pending = rest ∧ u.responses = s.responses ++ [r] ∧
      (r.status ≠ .ok → r.output = []) ∧
      (∀ i, decode t = .ok i → r.status = .ok → r.output.length = outputLength i)

/-! ## The invariant -/

/-- 10_state.md R21 holds after reset. -/
def Obligations.InvariantAtReset : Prop := State.reset.Inv

/-- 10_state.md R21: every step, from any state that meets the invariant, leaves one that meets it. -/
def Obligations.StepKeepsInvariant : Prop :=
  ∀ s t : State, s.Inv → step s = .next t → t.Inv

/-- From any state that meets the invariant no step stops: every command completes or reports one of the three
errors (42_squeeze.md R81 "cannot arise from any command sequence", 20_memory.md R28 "An address outside 0..199
cannot be formed"). -/
def Obligations.NoStepStopsUnderInvariant : Prop :=
  ∀ s : State, s.Inv → ∃ t, step s = .next t

/-- 70_reset_and_hazards.md R125: in an idle phase the other registers cannot be observed. Two machines that differ at
most there, given the same host events, give the same responses at every point of any run. -/
def Obligations.IdleRegistersAreUnobservable : Prop :=
  ∀ (k : Nat) (s t s' : State), s.SameToHost t → Host.Core.run Sys2Proof.core k s = .next s' →
    ∃ t' : State, Host.Core.run Sys2Proof.core k t = .next t' ∧ s'.responses = t'.responses ∧ s'.SameToHost t'

/-! ## The sponge -/

/-- 00_scope.md R12, 43_streaming_engine.md R99, R102: the response of one `HASH` in an idle phase is the sponge of
the padded message in whole blocks, whatever the context held before. -/
def Obligations.HashIsTheSponge : Prop :=
  ∀ (outLen : Nat) (input : List Byte) (n : Nat) (m : Mode) (s : State),
    s.ctx.phase = .uninitialized ∨ s.ctx.phase = .finalized → LegalPair m n → (m = .sha3 → outLen = n / 8) →
      ∃ t, exec (.hash outLen input n m) s = .next t ∧
        t.responses = s.responses ++
          [⟨.ok, spongeOutput ((1600 - 2 * n) / 8) (if m = .sha3 then 0x06 else 0x1F) input outLen⟩]

/-- R95, R102: from ANY state, the transactions of `init(n, m)`, any number of `update`s and `final(outLen)`, presented
by the host, are all answered `OK`, and the last response is the sponge of the concatenated payloads. -/
def Obligations.StreamedRunIsTheSponge : Prop :=
  ∀ (chunks : List (List Byte)) (outLen n : Nat) (m : Mode) (s : State) (rest : List HostEvent),
    LegalPair m n → (m = .sha3 → outLen = n / 8) → outLen < 2 ^ 32 →
    s.pending = .command (encode (.init n m)) ::
      (chunks.map fun p => HostEvent.command (encode (.update p))) ++ .command (encode (.final outLen)) :: rest →
      ∃ t : State, Host.Core.run Sys2Proof.core (chunks.length + 2) s = .next t ∧ t.pending = rest ∧
        t.ctx.Idle ∧ t.ctx.phase = .finalized ∧
        t.responses = s.responses ++ List.replicate (chunks.length + 1) ⟨.ok, []⟩ ++
          [⟨.ok, spongeOutput ((1600 - 2 * n) / 8) (if m = .sha3 then 0x06 else 0x1F) chunks.flatten outLen⟩]

/-! ## The micro-operations -/

/-- 00_scope.md R8: `rotl64` is the rule's formula on naturals and moves bit `i` to bit `(i + n) mod 64`, for every
amount `n`; amounts are taken modulo 64 and a multiple of 64 is the identity; the complement is exclusive-or with
ones, within 64 bits. -/
def Obligations.RotateLeftMovesBits : Prop :=
  (∀ (a : Lane) (n : Nat), n % 64 ≠ 0 →
    (rotl64 a n).toNat = ((a.toNat <<< (n % 64)) ||| (a.toNat >>> (64 - n % 64))) % 2 ^ 64) ∧
  (∀ a : Lane, ~~~ a = a ^^^ 0xFFFFFFFFFFFFFFFF) ∧
  (∀ (a : Lane) (n i : Nat), i < 64 → (rotl64 a n).getLsbD ((i + n) % 64) = a.getLsbD i) ∧
  (∀ (a : Lane) (n : Nat), rotl64 a n = rotl64 a (n % 64)) ∧
  (∀ (a : Lane) (q : Nat), rotl64 a (64 * q) = a)

/-- 10_state.md R14: the lane is the sum of its eight bytes, least significant first; a byte is a slice of its lane;
and a write through one view is seen through the other. (Which bytes a lane has is marked general knowledge, 93 G1,
log 11.) -/
def Obligations.BytesAndLanesAreOneStorage : Prop :=
  (∀ (b : Buffer) (i : Nat), i < 25 →
    (b.lane i).toNat =
      (b.byte (8 * i)).toNat + 2 ^ 8 * (b.byte (8 * i + 1)).toNat + 2 ^ 16 * (b.byte (8 * i + 2)).toNat +
      2 ^ 24 * (b.byte (8 * i + 3)).toNat + 2 ^ 32 * (b.byte (8 * i + 4)).toNat +
      2 ^ 40 * (b.byte (8 * i + 5)).toNat + 2 ^ 48 * (b.byte (8 * i + 6)).toNat +
      2 ^ 56 * (b.byte (8 * i + 7)).toNat) ∧
  (∀ (b : Buffer) (i j : Nat), i < 25 → j < 8 →
    (b.byte (8 * i + j)).toNat = (b.lane i).toNat / 2 ^ (8 * j) % 2 ^ 8) ∧
  (∀ (b : Buffer) (i j : Nat) (v : Lane), i < 25 → j < 8 →
    ((b.setLane i v).byte (8 * i + j)).toNat = v.toNat / 2 ^ (8 * j) % 2 ^ 8) ∧
  (∀ (b : Buffer) (k : Nat) (v : Byte), k < 200 →
    ((b.setByte k v).lane (k / 8)).toNat / 2 ^ (8 * (k % 8)) % 2 ^ 8 = v.toNat)

/-- 20_memory.md R31: a byte write changes exactly eight bits of one lane, a lane write exactly eight bytes. -/
def Obligations.WritesTouchNothingElse : Prop :=
  (∀ (b : Buffer) (k : Nat) (v : Byte), k < 200 →
    (b.setByte k v).byte k = v ∧ (∀ n, n ≠ k → (b.setByte k v).byte n = b.byte n) ∧
      (∀ i, i ≠ k / 8 → (b.setByte k v).lane i = b.lane i) ∧
      (∀ p < 64, p < 8 * (k % 8) ∨ 8 * (k % 8) + 8 ≤ p →
        ((b.setByte k v).lane (k / 8)).getLsbD p = (b.lane (k / 8)).getLsbD p)) ∧
  (∀ (b : Buffer) (i : Nat) (v : Lane), i < 25 →
    (b.setLane i v).lane i = v ∧
      (∀ k, k < 8 * i ∨ 8 * i + 8 ≤ k → (b.setLane i v).byte k = b.byte k))

/-- 40_permutation.md R63: every lane after `THETA`, and the two corner cases. (The direction of `rot1` is marked general
knowledge there, 93 G5, log 11.) -/
def Obligations.ThetaFormula : Prop :=
  (∀ (b : Buffer) (x y : Nat), x < 5 → y < 5 →
    (theta b).laneAt x y =
      b.laneAt x y ^^^ (rotl64 (columnParity b ((x + 1) % 5)) 1 ^^^ columnParity b ((x + 4) % 5))) ∧
  theta .zero = .zero ∧
  (∀ b : Buffer, (∀ x < 5, columnParity b x = 0) → theta b = b)

/-- 40_permutation.md R64: `RHO` rotates each lane by its offset; the offsets are those of the generating walk, lane
`(0,0)` has offset 0, and the other 24 are non-zero, below 64 and distinct. (The table is marked general knowledge,
93 G2, log 11.) -/
def Obligations.RhoFormula : Prop :=
  (∀ (b : Buffer), (rho b).lane 0 = b.lane 0 ∧
    ∀ p ∈ rhoWalk 24 0 1 0, (rho b).lane p.1 = rotl64 (b.lane p.1) p.2) ∧
  ((rhoWalk 24 0 1 0).map Prod.fst).Perm ((List.range 24).map (· + 1)) ∧
  (∀ i < 25, (rhoOffset i = 0 ↔ i = 0) ∧ rhoOffset i < 64) ∧
  (∀ i < 25, ∀ j < 25, rhoOffset i = rhoOffset j → i = j)

/-- 40_permutation.md R65: `PI` moves the lane at `(x, y)` to `(y, (2x + 3y) mod 5)`; position `(x, y)` receives the
lane that was at `((x + 3y) mod 5, x)`; the destinations form one fixed point and one cycle of 24. (The table is marked general knowledge, 93 G3, log 11.) -/
def Obligations.PiFormula : Prop :=
  (∀ (b : Buffer) (x y : Nat), x < 5 → y < 5 →
    (pi b).laneAt y ((2 * x + 3 * y) % 5) = b.laneAt x y ∧
    (pi b).laneAt x y = b.laneAt ((x + 3 * y) % 5) x ∧
    piDest (x + 5 * y) = y + 5 * ((2 * x + 3 * y) % 5)) ∧
  piDest 0 = 0 ∧ (List.range 24).map (fun k => piDest (([1] ++ chainPositions).getD k 0)) = chainPositions ∧
  chainPositions.Perm ((List.range 24).map (· + 1))

/-- 40_permutation.md R66: every lane after `CHI` is computed from the row as it was; the all-zero state and a row of
all-ones lanes stay as they are. (The simultaneous reading is marked general knowledge, 93 G6, log 11.) -/
def Obligations.ChiFormula : Prop :=
  (∀ (b : Buffer) (x y : Nat), x < 5 → y < 5 →
    (chi b).laneAt x y = b.laneAt x y ^^^ (~~~ b.laneAt ((x + 1) % 5) y &&& b.laneAt ((x + 2) % 5) y)) ∧
  chi .zero = .zero ∧
  (∀ (b : Buffer) (y : Nat), y < 5 → (∀ x < 5, b.laneAt x y = 0xFFFFFFFFFFFFFFFF) →
    ∀ x < 5, (chi b).laneAt x y = 0xFFFFFFFFFFFFFFFF)

/-- 40_permutation.md R67: `IOTA(r)` changes lane `(0,0)` only, by the round constant the shift register generates;
the table repeats only at `RC[5] = RC[22]` and `RC[6] = RC[20]`, and sets only bits 0, 1, 3, 7, 15, 31 and 63. (The table is
marked general knowledge, 93 G4, log 11.) -/
def Obligations.IotaFormula : Prop :=
  (∀ (b : Buffer) (r : Nat), r < 24 →
    (iota r b).lane 0 = b.lane 0 ^^^ generatedRoundConstant r ∧ ∀ i, i ≠ 0 → (iota r b).lane i = b.lane i) ∧
  (∀ r < 24, roundConstant r &&& 0x7FFFFFFF7FFF7F74 = 0) ∧
  (∀ q < 24, ∀ r < 24, q < r →
    (roundConstant q = roundConstant r ↔ (q = 5 ∧ r = 22) ∨ (q = 6 ∧ r = 20)))

/-- 40_permutation.md R68: walking the chain with one carried lane equals `RHO` followed by `PI`. -/
def Obligations.FusedRhoPiEqualsSteps : Prop :=
  ∀ b : Buffer, rhoPi b = pi (rho b)

/-- 40_permutation.md R61, R62: `PERMUTE` is 24 rounds in increasing `r`, each THETA, RHO, PI, CHI, IOTA in this order;
the examples of both rules (the contents of the tables are ones the spec marks as general knowledge, log 11). -/
def Obligations.PermuteRunsRounds : Prop :=
  (∀ b : Buffer, permute b = (List.range 24).foldl (fun b r => iota r (chi (pi (rho (theta b))))) b) ∧
  (permute .zero).lane 0 = 0xF1258F7940E1DDE7 ∧ (permute .zero).lane 1 = 0x84D5CCF933C0478A ∧
  theta .zero = .zero ∧ rho .zero = .zero ∧ pi .zero = .zero ∧ chi .zero = .zero ∧
  (round 0 .zero).lane 0 = 0x0000000000000001 ∧ (∀ i < 25, i ≠ 0 → (round 0 .zero).lane i = 0)

/-- 41_absorb.md R74: the two checks of `ABSORB`, in their order, for naturals of any size; with both passed and
`OFFSET` inside the rate region it completes. Neither can fail on a live context; the zeroed parameters of an idle one
fail the first. -/
def Obligations.AbsorbValidates : Prop :=
  (∀ (c : Context) (data : List Byte) (rate cap : Nat),
    (rate + cap ≠ 1600 → absorb c data rate cap = .raised .rateCapacitySum) ∧
    (rate + cap = 1600 ∧ (rate % 8 ≠ 0 ∨ rate < 8) →
      absorb c data rate cap = .raised .rateNotPositiveMultipleOf8) ∧
    (rate + cap = 1600 ∧ rate % 8 = 0 ∧ 8 ≤ rate ∧ c.offset.toNat < rate / 8 →
      ∃ b f, absorb c data rate cap = .done { c with buffer := b, offset := f })) ∧
  (∀ (c : Context) (data : List Byte), c.Live →
    ∃ c', absorb c data c.rate.toNat c.capacity.toNat = .done c') ∧
  (∀ (c : Context) (data : List Byte), c.Idle →
    absorb c data c.rate.toNat c.capacity.toNat = .raised .rateCapacitySum)

/-- 42_squeeze.md R81: outside its precondition `SQUEEZE` is refused; every live context meets the precondition. -/
def Obligations.SqueezePrecondition : Prop :=
  (∀ (c : Context) (outLen rate : Nat) (suffix : Byte),
    ¬ (rate % 8 = 0 ∧ 8 ≤ rate ∧ rate ≤ 1600 ∧ c.offset.toNat < rate / 8) →
      squeeze c outLen rate suffix = .refused .squeezePrecondition) ∧
  (∀ c : Context, c.Live →
    c.rate.toNat % 8 = 0 ∧ 8 ≤ c.rate.toNat ∧ c.rate.toNat ≤ 1600 ∧ c.offset.toNat < c.rate.toNat / 8)

/-- 42_squeeze.md R82 to R86: what `SQUEEZE` returns under its precondition, byte by byte, for every suffix (the edge
case of R83 included): byte `p` is byte `p mod rateBytes` of the rate region after `p div rateBytes` permutations of
the padded and permuted buffer. -/
def Obligations.SqueezeOutputBytes : Prop :=
  ∀ (c : Context) (outLen rate : Nat) (suffix : Byte),
    rate % 8 = 0 → 8 ≤ rate → rate ≤ 1600 → c.offset.toNat < rate / 8 →
      ∃ b out, squeeze c outLen rate suffix = .done (b, out) ∧
        (suffix.getLsbD 7 = true ∧ c.offset.toNat = rate / 8 - 1 →
          out = (List.range outLen).map (outputByte (rate / 8)
            (permute ((permute (c.buffer.xorByte c.offset.toNat suffix)).xorByte (rate / 8 - 1) 0x80)))) ∧
        (¬ (suffix.getLsbD 7 = true ∧ c.offset.toNat = rate / 8 - 1) →
          out = (List.range outLen).map (outputByte (rate / 8)
            (permute ((c.buffer.xorByte c.offset.toNat suffix).xorByte (rate / 8 - 1) 0x80))))

/-- 70_reset_and_hazards.md R136: with the suffixes of the engine the extra permutation of R83 never runs. -/
def Obligations.EdgeCaseNeverFires : Prop :=
  ∀ c : Context, c.Live → padCollides c.suffix c.offset.toNat (c.rate.toNat / 8) = false

/-- 41_absorb.md R78, R79 law 2: with valid parameters the state machine of `ABSORB` ends in `A_DONE` after
`3 + 2n + p` micro-steps, where `p = (o + n) div rateBytes` is the number of `PERMUTE` calls it made, with the buffer
and offset of the big-step `ABSORB`. (That one visit of a micro-state is one micro-step, so that there are `3 + 2n + p` of
them, is the model's choice, log 16; R78 counts none.) -/
def Obligations.AbsorbFsmRefinesAbsorb : Prop :=
  ∀ (c : Context) (data : List Byte) (rate cap : Nat),
    rate + cap = 1600 → rate % 8 = 0 → 8 ≤ rate → c.offset.toNat < rate / 8 →
      ∃ c' m, absorb c data rate cap = .done c' ∧
        AbsorbFsm.run data rate cap (3 + 2 * data.length + (c.offset.toNat + data.length) / (rate / 8))
          (AbsorbFsm.start c) = m ∧
        m.micro = .done ∧ m.buffer = c'.buffer ∧ m.offset = c'.offset ∧
        m.permutes = (c.offset.toNat + data.length) / (rate / 8)

/-- 42_squeeze.md R87, R88 laws 1 and 2: under the precondition the state machine of `SQUEEZE` reaches `Q_DONE` with the
buffer and output of the big-step `SQUEEZE`, after `e + 1 + max(0, ceil(outLen / rateBytes) - 1)` `PERMUTE` calls,
`e = 1` in the edge case of R83 and 0 otherwise. -/
def Obligations.SqueezeFsmRefinesSqueeze : Prop :=
  ∀ (c : Context) (outLen rate : Nat) (suffix : Byte),
    rate % 8 = 0 → 8 ≤ rate → rate ≤ 1600 → c.offset.toNat < rate / 8 →
      ∃ b out k m, squeeze c outLen rate suffix = .done (b, out) ∧ out.length = outLen ∧
        SqueezeFsm.run c.offset.toNat (rate / 8) suffix k (SqueezeFsm.start c outLen) = m ∧
        m.micro = .done ∧ m.buffer = b ∧ m.out = out ∧
        m.permutes = (if suffix.getLsbD 7 = true ∧ c.offset.toNat = rate / 8 - 1 then 1 else 0) + 1 +
          ((outLen + rate / 8 - 1) / (rate / 8) - 1)
end

