-- ==== Sys2Proof/Laws/Buffer.lean ====
section
/-! SUPPORT. The laws of the state buffer: lane view, byte view, and how a write through one shows in the other
(10_state.md R14, 20_memory.md R31). -/

namespace Sys2Proof.Machine

/-! ## Lanes -/

theorem Buffer.lane_eq_getElem (b : Buffer) {i : Nat} (h : i < 25) : b.lane i = b.lanes[i] := by
  simp [Buffer.lane, h]

/-- There is no lane from 25 on; its reading is the all-zero word. -/
theorem Buffer.lane_of_ge (b : Buffer) {i : Nat} (h : 25 ≤ i) : b.lane i = 0 := by
  simp [Buffer.lane, h]

@[ext] theorem Buffer.ext_lane {a b : Buffer} (h : ∀ i < 25, a.lane i = b.lane i) : a = b := by
  obtain ⟨u⟩ := a
  obtain ⟨v⟩ := b
  congr 1
  ext i hi : 1
  simpa [Buffer.lane, hi] using h i hi

@[simp] theorem Buffer.lane_tabulate (f : Nat → Lane) {i : Nat} (h : i < 25) : (Buffer.tabulate f).lane i = f i := by
  rw [Buffer.lane_eq_getElem _ h]
  simp [Buffer.tabulate]

@[simp] theorem Buffer.lane_zero (i : Nat) : Buffer.zero.lane i = 0 := by
  by_cases h : i < 25
  · rw [Buffer.lane_eq_getElem _ h]; simp [Buffer.zero]
  · exact Buffer.lane_of_ge _ (by omega)

@[simp] theorem Buffer.lane_setLane_same (b : Buffer) {i : Nat} (v : Lane) (h : i < 25) : (b.setLane i v).lane i = v := by
  rw [Buffer.lane_eq_getElem _ h]
  simp [Buffer.setLane]

theorem Buffer.lane_setLane_ne (b : Buffer) {i j : Nat} (v : Lane) (h : i ≠ j) : (b.setLane i v).lane j = b.lane j := by
  by_cases hj : j < 25
  · rw [Buffer.lane_eq_getElem _ hj, Buffer.lane_eq_getElem _ hj]
    simp [Buffer.setLane, h]
  · rw [Buffer.lane_of_ge _ (by omega), Buffer.lane_of_ge _ (by omega)]

/-! ## Bytes of a lane -/

theorem laneByte_bit (a : Lane) (j n : Nat) (h : n < 8) :
    (a.extractLsb' (8 * j) 8).getLsbD n = a.getLsbD (8 * j + n) := by
  simp [h]

/-- Bit `n` of a lane whose byte `j` was replaced: from the new byte inside that byte, the old bit elsewhere. -/
theorem laneWithByte_bit (a : Lane) (j : Nat) (v : Byte) (n : Nat) (hn : n < 64) :
    (laneWithByte a j v).getLsbD n = if n / 8 = j then v.getLsbD (n % 8) else a.getLsbD n := by
  have mask : ∀ m, m < 64 → (0xFF : Lane).getLsbD m = decide (m < 8) := by decide
  have high : ∀ m, 8 ≤ m → v.getLsbD m = false := fun m hm => BitVec.getLsbD_of_ge _ _ hm
  simp only [laneWithByte, BitVec.getLsbD_or, BitVec.getLsbD_and, BitVec.getLsbD_not, BitVec.getLsbD_shiftLeft,
    BitVec.getLsbD_setWidth, hn, decide_true, Bool.true_and]
  by_cases low : n < 8 * j
  · have hne : n / 8 ≠ j := by omega
    simp [low, hne]
  · have hlt : n - 8 * j < 64 := by omega
    rw [mask _ hlt]
    by_cases hin : n / 8 = j
    · have h8 : n - 8 * j < 8 := by omega
      have hm : n - 8 * j = n % 8 := by omega
      have hp : n % 8 < 8 := by omega
      have hq : n % 8 < 64 := by omega
      simp [low, hin, hm, hp, hq]
    · have h8 : ¬ n - 8 * j < 8 := by omega
      have hz : v.getLsbD (n - 8 * j) = false := high _ (by omega)
      simp [low, hin, h8, hz]

theorem laneByte_laneWithByte_same (a : Lane) {j : Nat} (v : Byte) (hj : j < 8) :
    (laneWithByte a j v).extractLsb' (8 * j) 8 = v := by
  ext n hn
  rw [BitVec.getElem_eq_testBit_toNat, BitVec.getElem_eq_testBit_toNat]
  change BitVec.getLsbD _ n = BitVec.getLsbD _ n
  rw [laneByte_bit _ _ _ hn, laneWithByte_bit _ _ _ _ (by omega)]
  have h1 : (8 * j + n) / 8 = j := by omega
  have h2 : (8 * j + n) % 8 = n := by omega
  simp [h1, h2]

theorem laneByte_laneWithByte_ne (a : Lane) {i j : Nat} (v : Byte) (hi : i < 8) (hne : j ≠ i) :
    (laneWithByte a j v).extractLsb' (8 * i) 8 = a.extractLsb' (8 * i) 8 := by
  ext n hn
  rw [BitVec.getElem_eq_testBit_toNat, BitVec.getElem_eq_testBit_toNat]
  change BitVec.getLsbD _ n = BitVec.getLsbD _ n
  rw [laneByte_bit _ _ _ hn, laneByte_bit _ _ _ hn, laneWithByte_bit _ _ _ _ (by omega)]
  have h1 : (8 * i + n) / 8 ≠ j := by omega
  simp [h1]

/-- A lane is determined by its eight bytes. -/
theorem lane_ext_bytes {a b : Lane} (h : ∀ j < 8, a.extractLsb' (8 * j) 8 = b.extractLsb' (8 * j) 8) : a = b := by
  apply BitVec.eq_of_getLsbD_eq
  intro n hn
  have hb := congrArg (fun v : Byte => v.getLsbD (n % 8)) (h (n / 8) (by omega))
  simp only [laneByte_bit _ _ _ (show n % 8 < 8 by omega)] at hb
  have : 8 * (n / 8) + n % 8 = n := by omega
  rwa [this] at hb

/-! ## Bytes of the buffer -/

/-- There is no byte from 200 on; its reading is zero. -/
theorem Buffer.byte_of_ge (b : Buffer) {k : Nat} (h : 200 ≤ k) : b.byte k = 0 := by
  rw [Buffer.byte, Buffer.lane_of_ge _ (by omega)]
  rw [BitVec.extractLsb'_eq_extractLsb]
  all_goals simp

@[simp] theorem Buffer.byte_zero (k : Nat) : Buffer.zero.byte k = 0 := by
  rw [Buffer.byte, Buffer.lane_zero]
  rw [BitVec.extractLsb'_eq_extractLsb]
  all_goals simp

/-- Read after write of the same byte. -/
@[simp] theorem Buffer.byte_setByte_same (b : Buffer) {k : Nat} (v : Byte) (h : k < 200) : (b.setByte k v).byte k = v := by
  rw [Buffer.byte, Buffer.setByte, Buffer.lane_setLane_same _ _ (by omega)]
  exact laneByte_laneWithByte_same _ _ (by omega)

/-- A byte write leaves every other byte alone (20_memory.md R31). -/
theorem Buffer.byte_setByte_ne (b : Buffer) {k n : Nat} (v : Byte) (h : k ≠ n) : (b.setByte k v).byte n = b.byte n := by
  rw [Buffer.byte, Buffer.byte, Buffer.setByte]
  by_cases hl : k / 8 = n / 8
  · by_cases hk : n / 8 < 25
    · rw [hl, Buffer.lane_setLane_same _ _ hk]
      exact laneByte_laneWithByte_ne _ _ (by omega) (by omega)
    · rw [Buffer.lane_of_ge _ (by omega), Buffer.lane_of_ge _ (by omega)]
  · rw [Buffer.lane_setLane_ne _ _ hl]

/-- Two buffers with the same 200 bytes are equal: the byte view says everything (10_state.md R14). -/
theorem Buffer.ext_byte {a b : Buffer} (h : ∀ k < 200, a.byte k = b.byte k) : a = b := by
  apply Buffer.ext_lane
  intro i hi
  apply lane_ext_bytes
  intro j hj
  have := h (8 * i + j) (by omega)
  rw [Buffer.byte, Buffer.byte] at this
  have h1 : (8 * i + j) / 8 = i := by omega
  have h2 : (8 * i + j) % 8 = j := by omega
  rwa [h1, h2] at this

theorem Buffer.eq_zero_of_bytes {b : Buffer} (h : ∀ k < 200, b.byte k = 0) : b = .zero :=
  Buffer.ext_byte fun k hk => by rw [h k hk, Buffer.byte_zero]

/-- Every byte after `S[k] <- S[k] ^ v`. -/
theorem Buffer.byte_xorByte (b : Buffer) {k : Nat} (v : Byte) (h : k < 200) (n : Nat) :
    (b.xorByte k v).byte n = if n = k then b.byte k ^^^ v else b.byte n := by
  by_cases hn : n = k
  · subst hn; simp [Buffer.xorByte, h]
  · rw [if_neg hn]; exact Buffer.byte_setByte_ne _ _ (Ne.symm hn)

/-! ## Output blocks -/

@[simp] theorem Buffer.firstBytes_length (b : Buffer) (k : Nat) : (b.firstBytes k).length = k := by
  simp [Buffer.firstBytes]

@[simp] theorem Buffer.firstBytes_getElem (b : Buffer) (k n : Nat) (h : n < (b.firstBytes k).length) :
    (b.firstBytes k)[n] = b.byte n := by
  simp [Buffer.firstBytes]

/-! ## Rotation -/

@[simp] theorem rotl64_zero (a : Lane) : rotl64 a 0 = a := by simp [rotl64]

/-- Rotate amounts are taken modulo 64 (00_scope.md R8). -/
theorem rotl64_mod (a : Lane) (n : Nat) : rotl64 a (n % 64) = rotl64 a n := by simp [rotl64]

end Sys2Proof.Machine
end

