-- ==== Sys2Proof/Laws/Absorb.lean ====
section
/-! SUPPORT. What `ABSORB` and its loop can do (41_absorb.md R73 to R77). -/

namespace Sys2Proof.Machine

/-- One byte of the loop in the state space. -/
theorem absorbBytes_cons (rb : Nat) (x : Byte) (rest : List Byte) (b : Buffer) {fill : Nat} (h : fill < 200) :
    absorbBytes rb (x :: rest) b fill =
      if fill + 1 = rb then absorbBytes rb rest (permute (b.xorByte fill x)) 0
      else absorbBytes rb rest (b.xorByte fill x) (fill + 1) := by
  simp [absorbBytes, h]

/-- The loop hands back a buffer and a fill count, or faults outside the state space: nothing else. -/
theorem absorbBytes_cases (rb : Nat) (data : List Byte) (b : Buffer) (fill : Nat) :
    (∃ b' f', absorbBytes rb data b fill = .done (b', f')) ∨
      ∃ k, 200 ≤ k ∧ absorbBytes rb data b fill = .fault (.addressOutsideStateSpace k) := by
  induction data generalizing b fill with
  | nil => exact .inl ⟨b, fill, rfl⟩
  | cons x rest ih =>
    by_cases h : fill < 200
    · rw [absorbBytes_cons _ _ _ _ h]
      split
      · exact ih _ _
      · exact ih _ _
    · exact .inr ⟨fill, by omega, by simp [absorbBytes, h]⟩

/-- From an offset inside the rate region the loop never leaves it: it completes, with the offset R79 law 1 gives. -/
theorem absorbBytes_completes {rb : Nat} (hrb : rb ≤ 200) (data : List Byte) (b : Buffer) {fill : Nat} (h : fill < rb) :
    ∃ b', absorbBytes rb data b fill = .done (b', (fill + data.length) % rb) := by
  induction data generalizing b fill with
  | nil => exact ⟨b, by simp [absorbBytes, Nat.mod_eq_of_lt h]⟩
  | cons x rest ih =>
    rw [absorbBytes_cons _ _ _ _ (by omega)]
    split
    · next hfull =>
      obtain ⟨b', hb⟩ := ih (permute (b.xorByte fill x)) (show 0 < rb by omega)
      refine ⟨b', hb.trans ?_⟩
      have : fill + (x :: rest).length = rb + (0 + rest.length) := by simp; omega
      rw [this, Nat.add_mod_left]
    · next hpart =>
      obtain ⟨b', hb⟩ := ih (b.xorByte fill x) (show fill + 1 < rb by omega)
      refine ⟨b', hb.trans ?_⟩
      have : fill + (x :: rest).length = fill + 1 + rest.length := by simp; omega
      rw [this]

/-- The loop over `p ++ q` is the loop over `p` and then over `q`. -/
theorem absorbBytes_append (rb : Nat) (p q : List Byte) (b : Buffer) (fill : Nat) {b' : Buffer} {f' : Nat}
    (h : absorbBytes rb p b fill = .done (b', f')) :
    absorbBytes rb (p ++ q) b fill = absorbBytes rb q b' f' := by
  induction p generalizing b fill with
  | nil =>
    have : (b, fill) = (b', f') := by simpa [absorbBytes] using h
    simp [← (Prod.mk.inj this).1, ← (Prod.mk.inj this).2]
  | cons x rest ih =>
    by_cases hf : fill < 200
    · rw [absorbBytes_cons _ _ _ _ hf] at h
      rw [List.cons_append, absorbBytes_cons _ _ _ _ hf]
      split
      · next hfull => rw [if_pos hfull] at h; exact ih _ _ h
      · next hpart => rw [if_neg hpart] at h; exact ih _ _ h
    · simp [absorbBytes, hf] at h

/-- A payload that does not complete the block is exclusive-ored into the bytes from `fill` on, and nothing else
changes (R75, R79 law 4). -/
theorem absorbBytes_inside {rb : Nat} (hrb : rb ≤ 200) (data : List Byte) (b : Buffer) (fill : Nat)
    (h : fill + data.length < rb) :
    ∃ b', absorbBytes rb data b fill = .done (b', fill + data.length) ∧
      (∀ j < data.length, b'.byte (fill + j) = b.byte (fill + j) ^^^ data.getD j 0) ∧
      (∀ k, k < fill ∨ fill + data.length ≤ k → b'.byte k = b.byte k) := by
  induction data generalizing b fill with
  | nil => exact ⟨b, rfl, by simp, by simp⟩
  | cons x rest ih =>
    simp only [List.length_cons] at h
    obtain ⟨b', h1, h2, h3⟩ := ih (b.xorByte fill x) (fill + 1) (by omega)
    refine ⟨b', ?_, ?_, ?_⟩
    · rw [absorbBytes_cons _ _ _ _ (by omega), if_neg (by omega), h1]; simp; omega
    · intro j hj
      cases j with
      | zero => rw [Nat.add_zero, h3 fill (by omega), Buffer.byte_xorByte _ _ (by omega)]; simp
      | succ j =>
        have := h2 j (by simpa using hj)
        rw [show fill + (j + 1) = fill + 1 + j by omega, this, Buffer.byte_xorByte _ _ (by omega), if_neg (by omega)]
        simp
    · intro k hk
      simp only [List.length_cons] at hk
      rw [h3 k (by omega), Buffer.byte_xorByte _ _ (by omega), if_neg (by omega)]

/-- Everything `ABSORB` can do: the two checks of R74 in their order, or the loop from `OFFSET` and only `S` and
`OFFSET` written, or the fault of the loop. -/
theorem absorb_cases (c : Context) (data : List Byte) (rate cap : Nat) :
    (rate + cap ≠ 1600 ∧ absorb c data rate cap = .raised .rateCapacitySum) ∨
    (rate + cap = 1600 ∧ (rate % 8 ≠ 0 ∨ rate < 8) ∧ absorb c data rate cap = .raised .rateNotPositiveMultipleOf8) ∨
    (rate + cap = 1600 ∧ rate % 8 = 0 ∧ 8 ≤ rate ∧
      ((∃ b fill, absorbBytes (rate / 8) data c.buffer c.offset.toNat = .done (b, fill) ∧
          absorb c data rate cap = .done { c with buffer := b, offset := BitVec.ofNat 8 fill }) ∨
        ∃ k, 200 ≤ k ∧ absorb c data rate cap = .fault (.addressOutsideStateSpace k))) := by
  unfold absorb
  by_cases h1 : rate + cap = 1600
  · by_cases h2 : rate % 8 ≠ 0 ∨ rate < 8
    · exact .inr (.inl ⟨h1, h2, by simp [h1, h2]⟩)
    · refine .inr (.inr ⟨h1, by omega, by omega, ?_⟩)
      have hc : ¬ (rate + cap ≠ Config.stateBits) := by simpa using h1
      rw [if_neg hc, if_neg h2]
      rcases absorbBytes_cases (rate / 8) data c.buffer c.offset.toNat with ⟨b, f, h⟩ | ⟨k, hk, h⟩
      · exact .inl ⟨b, f, h, by rw [h]⟩
      · exact .inr ⟨k, hk, by rw [h]⟩
  · exact .inl ⟨h1, by simp [h1]⟩

/-- `ABSORB` with valid parameters and an offset inside the rate region completes (R79 law 1). -/
theorem absorb_completes (c : Context) (data : List Byte) {rate cap : Nat} (hsum : rate + cap = 1600)
    (hmod : rate % 8 = 0) (hpos : 8 ≤ rate) (hoff : c.offset.toNat < rate / 8) :
    ∃ b, absorbBytes (rate / 8) data c.buffer c.offset.toNat =
        .done (b, (c.offset.toNat + data.length) % (rate / 8)) ∧
      absorb c data rate cap =
        .done { c with buffer := b, offset := BitVec.ofNat 8 ((c.offset.toNat + data.length) % (rate / 8)) } := by
  obtain ⟨b, hb⟩ := absorbBytes_completes (rb := rate / 8) (by omega) data c.buffer hoff
  refine ⟨b, hb, ?_⟩
  have h1 : ¬ (rate + cap ≠ Config.stateBits) := by simpa using hsum
  have h2 : ¬ (rate % 8 ≠ 0 ∨ rate < 8) := by omega
  rw [absorb, if_neg h1, if_neg h2, hb]

end Sys2Proof.Machine
end

