-- ==== Sys2Proof/Laws/State.lean ====
section
/-! SUPPORT. One lemma per field per update of the state, so that no later proof unfolds a record update. -/

namespace Sys2Proof.Machine

/-! ## Ending a command -/

@[simp] theorem State.answer_ctx (s : State) (c : Context) (r : Response) : (s.answer c r).ctx = c := rfl
@[simp] theorem State.answer_pending (s : State) (c : Context) (r : Response) : (s.answer c r).pending = s.pending := rfl
@[simp] theorem State.answer_responses (s : State) (c : Context) (r : Response) :
    (s.answer c r).responses = s.responses ++ [r] := rfl

@[simp] theorem State.complete_ctx (s : State) (c : Context) (o : List Byte) : (s.complete c o).ctx = c := rfl
@[simp] theorem State.complete_pending (s : State) (c : Context) (o : List Byte) :
    (s.complete c o).pending = s.pending := rfl
@[simp] theorem State.complete_responses (s : State) (c : Context) (o : List Byte) :
    (s.complete c o).responses = s.responses ++ [⟨.ok, o⟩] := rfl

/-! ## Errors -/

@[simp] theorem State.raiseParameterError_ctx (s : State) (x : ParameterCause) :
    (s.raiseParameterError x).ctx = .cleared .uninitialized := rfl
@[simp] theorem State.raiseParameterError_pending (s : State) (x : ParameterCause) :
    (s.raiseParameterError x).pending = s.pending := rfl
@[simp] theorem State.raiseParameterError_responses (s : State) (x : ParameterCause) :
    (s.raiseParameterError x).responses = s.responses ++ [⟨.errParam, []⟩] := rfl

@[simp] theorem State.raiseUsageError_ctx (s : State) : s.raiseUsageError.ctx = s.ctx := rfl
@[simp] theorem State.raiseUsageError_pending (s : State) : s.raiseUsageError.pending = s.pending := rfl
@[simp] theorem State.raiseUsageError_responses (s : State) :
    s.raiseUsageError.responses = s.responses ++ [⟨.errUsage, []⟩] := rfl

@[simp] theorem State.raiseIllegalCommand_ctx (s : State) (e : DecodeError) : (s.raiseIllegalCommand e).ctx = s.ctx := rfl
@[simp] theorem State.raiseIllegalCommand_pending (s : State) (e : DecodeError) :
    (s.raiseIllegalCommand e).pending = s.pending := rfl
@[simp] theorem State.raiseIllegalCommand_responses (s : State) (e : DecodeError) :
    (s.raiseIllegalCommand e).responses = s.responses ++ [⟨.errIllegal, []⟩] := rfl

/-! ## A command that goes on -/

@[simp] theorem State.continueWith_done {α : Type} (s : State) (a : α) (k : α → Outcome) :
    s.continueWith (.done a) k = k a := rfl
@[simp] theorem State.continueWith_raised {α : Type} (s : State) (x : ParameterCause) (k : α → Outcome) :
    s.continueWith (.raised x) k = .next (s.raiseParameterError x) := rfl
@[simp] theorem State.continueWith_fault {α : Type} (s : State) (x : Fault) (k : α → Outcome) :
    s.continueWith (.fault x) k = .fault x := rfl
@[simp] theorem State.continueWith_refused {α : Type} (s : State) (x : Refusal) (k : α → Outcome) :
    s.continueWith (.refused x) k = .refused x := rfl

/-! ## The port and reset -/

@[simp] theorem State.applyReset_ctx (s : State) : s.applyReset.ctx = .cleared .uninitialized := rfl
@[simp] theorem State.applyReset_pending (s : State) : s.applyReset.pending = s.pending := rfl
@[simp] theorem State.applyReset_responses (s : State) : s.applyReset.responses = s.responses := rfl
@[simp] theorem State.present_ctx (s : State) (t : Transaction) : (s.present t).ctx = s.ctx := rfl
@[simp] theorem State.present_responses (s : State) (t : Transaction) : (s.present t).responses = s.responses := rfl
@[simp] theorem State.present_pending (s : State) (t : Transaction) :
    (s.present t).pending = .command t :: s.pending := rfl

theorem State.takeEvent_none {s : State} (h : s.pending = []) : s.takeEvent = none := by
  simp [State.takeEvent, h]

theorem State.takeEvent_some {s : State} {e : HostEvent} {rest : List HostEvent} (h : s.pending = e :: rest) :
    s.takeEvent = some (e, { s with pending := rest }) := by
  simp [State.takeEvent, h]

/-! ## The cleared context (10_state.md R21) -/

@[simp] theorem Context.cleared_buffer (p : Phase) : (Context.cleared p).buffer = .zero := rfl
@[simp] theorem Context.cleared_rate (p : Phase) : (Context.cleared p).rate = 0 := rfl
@[simp] theorem Context.cleared_capacity (p : Phase) : (Context.cleared p).capacity = 0 := rfl
@[simp] theorem Context.cleared_suffix (p : Phase) : (Context.cleared p).suffix = 0 := rfl
@[simp] theorem Context.cleared_offset (p : Phase) : (Context.cleared p).offset = 0 := rfl
@[simp] theorem Context.cleared_mode (p : Phase) : (Context.cleared p).mode = .sha3 := rfl
@[simp] theorem Context.cleared_obs (p : Phase) : (Context.cleared p).obs = 0 := rfl
@[simp] theorem Context.cleared_phase (p : Phase) : (Context.cleared p).phase = p := rfl
@[simp] theorem State.reset_ctx : State.reset.ctx = .cleared .uninitialized := rfl

/-! ## The started context (43_streaming_engine.md R91) -/

@[simp] theorem Context.start_buffer (c : Context) (n : Nat) (m : Mode) : (c.start n m).buffer = .zero := rfl
@[simp] theorem Context.start_suffix (c : Context) (n : Nat) (m : Mode) : (c.start n m).suffix = suffixOf m := rfl
@[simp] theorem Context.start_offset (c : Context) (n : Nat) (m : Mode) : (c.start n m).offset = 0 := rfl
@[simp] theorem Context.start_mode (c : Context) (n : Nat) (m : Mode) : (c.start n m).mode = m := rfl
@[simp] theorem Context.start_phase (c : Context) (n : Nat) (m : Mode) : (c.start n m).phase = c.phase := rfl

/-- The six legal parameter sets (00_scope.md R5). -/
theorem legal_iff (m : Mode) (n : Nat) :
    legal m n = true ↔
      (m = .sha3 ∧ (n = 224 ∨ n = 256 ∨ n = 384 ∨ n = 512)) ∨ (m = .shake ∧ (n = 128 ∨ n = 256)) := by
  cases m <;> simp [legal, or_assoc]

/-- The output length check of `FINAL` and `HASH` passes (R96). -/
theorem outLenMismatches_eq_false (m : Mode) (outLen n : Nat) :
    outLenMismatches m outLen n = false ↔ (m = .sha3 → outLen = n / 8) := by
  cases m <;> simp [outLenMismatches]

/-- The output length check of `FINAL` and `HASH` fails (R96). -/
theorem outLenMismatches_eq_true (m : Mode) (outLen n : Nat) :
    outLenMismatches m outLen n = true ↔ m = .sha3 ∧ outLen ≠ n / 8 := by
  cases m <;> simp [outLenMismatches]

/-- An offset inside the rate region survives being stored in the 8-bit register `OFFSET`. -/
theorem offset_toNat {k rb : Nat} (h : k < rb) (hrb : rb ≤ 200) : (BitVec.ofNat 8 k).toNat = k := by
  rw [BitVec.toNat_ofNat]; exact Nat.mod_eq_of_lt (by omega)

/-- The registers `INIT` and `HASH` compute hold the exact naturals of R91: nothing wraps. -/
theorem Context.start_numbers (c : Context) {n : Nat} {m : Mode} (h : legal m n = true) :
    (c.start n m).rate.toNat = 1600 - 2 * n ∧ (c.start n m).capacity.toNat = 2 * n ∧ (c.start n m).obs.toNat = n := by
  have : n ≤ 512 := by rcases (legal_iff m n).1 h with ⟨-, h⟩ | ⟨-, h⟩ <;> omega
  simp only [Context.start, rateOf, capacityOf, Config.stateBits, BitVec.toNat_ofNat]
  omega

end Sys2Proof.Machine
end

