-- ==== Sys2Proof/Laws/Context.lean ====
section
/-! SUPPORT. The invariant of 10_state.md R21: the idle context is the cleared one, and what a live one says of its
numbers. -/

namespace Sys2Proof.Machine

theorem Context.cleared_idle {p : Phase} (h : p = .uninitialized ∨ p = .finalized) : (Context.cleared p).Idle where
  phase := h
  bytes_zero _ _ := Buffer.byte_zero _
  rate := rfl
  capacity := rfl
  suffix := rfl
  offset := rfl
  obs := rfl
  mode := rfl

/-- An idle context is the cleared one of its phase: no other data is left in it. -/
theorem Context.Idle.eq_cleared {c : Context} (h : c.Idle) : c = .cleared c.phase := by
  obtain ⟨buffer, rate, capacity, suffix, offset, mode, obs, phase⟩ := c
  obtain ⟨-, hb, h1, h2, h3, h4, h5, h6⟩ := h
  have hz : buffer = .zero := Buffer.eq_zero_of_bytes hb
  simp only at h1 h2 h3 h4 h5 h6
  subst hz h1 h2 h3 h4 h5 h6
  rfl

theorem Context.Idle.not_live {c : Context} (h : c.Idle) : c.phase.isLive = false := by
  rcases h.phase with h | h <;> rw [h] <;> rfl

theorem Context.Live.is_live {c : Context} (h : c.Live) : c.phase.isLive = true := by
  rcases h.phase with h | h <;> rw [h] <;> rfl

/-- The parameter facts `ABSORB` and `SQUEEZE` rely on hold of every live context (41_absorb.md R74,
42_squeeze.md R81). -/
theorem Context.Live.numbers {c : Context} (h : c.Live) :
    c.rate.toNat + c.capacity.toNat = 1600 ∧ c.rate.toNat % 8 = 0 ∧ 576 ≤ c.rate.toNat ∧ c.rate.toNat ≤ 1344 ∧
      c.offset.toNat < c.rate.toNat / 8 := by
  have hc := h.capacity
  have hr := h.rate
  have ho := h.offset
  rcases (legal_iff _ _).1 h.parameters with ⟨-, hp⟩ | ⟨-, hp⟩ <;> omega

/-- The block length of a live context lies inside the state space, and its offset inside the block. -/
theorem Context.Live.rateBytes {c : Context} (h : c.Live) :
    c.rateBytes ≤ 200 ∧ 0 < c.rateBytes ∧ c.offset.toNat < c.rateBytes := by
  obtain ⟨-, -, h3, h4, h5⟩ := h.numbers
  unfold Context.rateBytes
  omega

/-- A live context stays live when `UPDATE` writes `S`, an offset inside the rate region, and `PHASE`. -/
theorem Context.Live.absorbed {c : Context} (h : c.Live) (b : Buffer) {fill : Nat} (hf : fill < c.rateBytes) :
    ({ c with buffer := b, offset := BitVec.ofNat 8 fill, phase := .absorbing } : Context).Live where
  phase := .inr rfl
  parameters := h.parameters
  capacity := h.capacity
  rate := h.rate
  suffix := h.suffix
  offset := by
    simp only [offset_toNat hf h.rateBytes.1]
    exact hf
  fresh := by simp

/-- The context `INIT` leaves is live. -/
theorem Context.start_live (c : Context) {n : Nat} {m : Mode} (h : legal m n = true) :
    ({ c.start n m with phase := .initialized } : Context).Live := by
  obtain ⟨hr, hc, hn⟩ := c.start_numbers h
  constructor
  case phase => exact .inl rfl
  case parameters => simpa [hn] using h
  case capacity => simpa [hn] using hc
  case rate => simp only [hr, hc]
  case suffix => cases m <;> rfl
  case offset =>
    have : n ≤ 512 := by rcases (legal_iff m n).1 h with ⟨-, h⟩ | ⟨-, h⟩ <;> omega
    have ho : (c.start n m).offset.toNat = 0 := by simp
    simp only [hr, ho]
    omega
  case fresh => exact fun _ => ⟨fun _ _ => Buffer.byte_zero _, rfl⟩

end Sys2Proof.Machine
end

