-- ==== Sys2Proof/Laws/Squeeze.lean ====
section
/-! SUPPORT. What `SQUEEZE` and its loop can do (42_squeeze.md R80 to R86). -/

namespace Sys2Proof.Machine

/-- With enough turns the loop emits exactly `rem` bytes (R88 law 1). -/
theorem emitBlocks_length {rb : Nat} (hrb : 0 < rb) (turns rem : Nat) (b : Buffer) (h : rem ≤ turns) :
    (emitBlocks rb turns rem b).2.length = rem := by
  induction turns generalizing rem b with
  | zero => simp [emitBlocks]; omega
  | succ k ih =>
    rw [emitBlocks]
    split
    · next h0 => simp [h0]
    · next hpos =>
      split
      · next hlast => simp only [Buffer.firstBytes_length]; omega
      · next hmore =>
        simp only [List.length_append, Buffer.firstBytes_length]
        rw [ih _ _ (by omega)]
        omega

/-- A first block is bytes of the output from the buffer as it is. -/
theorem firstBytes_eq_output {rb k : Nat} (h : k ≤ rb) (b : Buffer) :
    b.firstBytes k = (List.range k).map (outputByte rb b) := by
  apply List.map_congr_left
  intro p hp
  have : p < rb := Nat.lt_of_lt_of_le (List.mem_range.1 hp) h
  simp [outputByte, Nat.div_eq_of_lt this, Nat.mod_eq_of_lt this, permuteTimes]

/-- With enough turns the loop emits the output bytes one after the other (R85). -/
theorem emitBlocks_eq_output {rb : Nat} (hrb : 0 < rb) (turns rem : Nat) (b : Buffer) (h : rem ≤ turns) :
    (emitBlocks rb turns rem b).2 = (List.range rem).map (outputByte rb b) := by
  induction turns generalizing rem b with
  | zero => simp [emitBlocks]; omega
  | succ k ih =>
    rw [emitBlocks]
    split
    · next h0 => simp [h0]
    · next hpos =>
      split
      · next hlast => rw [show min rb rem = rem by omega]; exact firstBytes_eq_output (by omega) b
      · next hmore =>
        rw [show min rb rem = rb by omega]
        simp only
        rw [ih _ _ (by omega), firstBytes_eq_output (Nat.le_refl _)]
        conv => rhs; rw [show rem = rb + (rem - rb) by omega, List.range_add, List.map_append, List.map_map]
        congr 1
        apply List.map_congr_left
        intro p _
        simp [outputByte, Nat.add_div_left _ hrb, permuteTimes]

/-- Everything `SQUEEZE` can do: complete under R81's precondition, refuse outside it. -/
theorem squeeze_cases (c : Context) (outLen rate : Nat) (suffix : Byte) :
    (squeezeReady rate c.offset.toNat = true ∧
      squeeze c outLen rate suffix =
        .done (emitBlocks (rate / 8) outLen outLen (padAndPermute c.buffer c.offset.toNat (rate / 8) suffix))) ∨
    (squeezeReady rate c.offset.toNat = false ∧ squeeze c outLen rate suffix = .refused .squeezePrecondition) := by
  unfold squeeze
  cases h : squeezeReady rate c.offset.toNat
  · exact .inr ⟨rfl, rfl⟩
  · exact .inl ⟨rfl, rfl⟩

theorem squeezeReady_iff (rate offset : Nat) :
    squeezeReady rate offset = true ↔ rate % 8 = 0 ∧ 8 ≤ rate ∧ rate ≤ 1600 ∧ offset < rate / 8 := by
  simp [squeezeReady]

/-- `SQUEEZE` under its precondition completes with exactly `outLen` bytes. -/
theorem squeeze_completes (c : Context) (outLen : Nat) {rate : Nat} (suffix : Byte) (hmod : rate % 8 = 0)
    (hpos : 8 ≤ rate) (hmax : rate ≤ 1600) (hoff : c.offset.toNat < rate / 8) :
    ∃ r, squeeze c outLen rate suffix = .done r ∧
      r = emitBlocks (rate / 8) outLen outLen (padAndPermute c.buffer c.offset.toNat (rate / 8) suffix) ∧
      r.2.length = outLen := by
  have h : squeezeReady rate c.offset.toNat = true := (squeezeReady_iff _ _).2 ⟨hmod, hpos, hmax, hoff⟩
  exact ⟨_, by rw [squeeze, if_pos h], rfl, emitBlocks_length (by omega) _ _ _ (Nat.le_refl _)⟩

end Sys2Proof.Machine
end

