-- ==== Sys2Proof/Laws/Engine.lean ====
section
/-! SUPPORT. Everything each host command can do (43_streaming_engine.md R90 to R99): one lemma per meaning, which
later proofs cite instead of unfolding it. -/

namespace Sys2Proof.Machine

/-- `INIT`: started, or `ERR_PARAM`; never refused, never a stop (R91). -/
theorem execInit_cases (n : Nat) (m : Mode) (s : State) :
    (legal m n = true ∧
      execInit n m s = .next (s.complete { s.ctx.start n m with phase := .initialized } [])) ∨
    (legal m n = false ∧ execInit n m s = .next (s.raiseParameterError .unsupportedOutputBitSize)) := by
  cases h : legal m n
  · exact .inr ⟨rfl, by simp [execInit, h]⟩
  · exact .inl ⟨rfl, by simp [execInit, h]⟩

/-- `UPDATE` in an idle phase (R90). -/
theorem execUpdate_idle (data : List Byte) {s : State} (h : s.ctx.phase.isLive = false) :
    execUpdate data s = .next s.raiseUsageError := by
  simp [execUpdate, h]

/-- `UPDATE` in a live phase is `ABSORB` and the new phase (R93). -/
theorem execUpdate_live (data : List Byte) {s : State} (h : s.ctx.phase.isLive = true) :
    execUpdate data s =
      s.continueWith (absorb s.ctx data s.ctx.rate.toNat s.ctx.capacity.toNat) fun c =>
        .next (s.complete { c with phase := .absorbing } []) := by
  simp [execUpdate, h]

/-- `FINAL` in an idle phase (R90). -/
theorem execFinal_idle (outLen : Nat) {s : State} (h : s.ctx.phase.isLive = false) :
    execFinal outLen s = .next s.raiseUsageError := by
  simp [execFinal, h]

/-- `FINAL` in a live phase: `ERR_PARAM`, or `SQUEEZE` and the cleared context (R96). -/
theorem execFinal_live (outLen : Nat) {s : State} (h : s.ctx.phase.isLive = true) :
    execFinal outLen s =
      if outLenMismatches s.ctx.mode outLen s.ctx.obs.toNat then .next (s.raiseParameterError .outLenMismatch)
      else
        s.continueWith (squeeze s.ctx outLen s.ctx.rate.toNat s.ctx.suffix) fun r =>
          .next (s.complete (.cleared .finalized) r.2) := by
  simp [execFinal, h]

/-- An accepted `UPDATE` on a live context completes (R93): which context it leaves. -/
theorem execUpdate_completes (data : List Byte) {s : State} (h : s.ctx.Live) :
    ∃ b, absorbBytes s.ctx.rateBytes data s.ctx.buffer s.ctx.offset.toNat =
        .done (b, (s.ctx.offset.toNat + data.length) % s.ctx.rateBytes) ∧
      execUpdate data s =
        .next (s.complete
          { s.ctx with
            buffer := b
            offset := BitVec.ofNat 8 ((s.ctx.offset.toNat + data.length) % s.ctx.rateBytes)
            phase := .absorbing } []) := by
  obtain ⟨h1, h2, h3, -, h5⟩ := h.numbers
  obtain ⟨b, hb, ha⟩ := absorb_completes s.ctx data h1 h2 (by omega) h5
  exact ⟨b, hb, by rw [execUpdate_live _ h.is_live, ha]; rfl⟩

/-- An accepted `FINAL` on a live context completes with `outLen` bytes (R96). -/
theorem execFinal_completes (outLen : Nat) {s : State} (h : s.ctx.Live)
    (hlen : outLenMismatches s.ctx.mode outLen s.ctx.obs.toNat = false) :
    ∃ out, out = (emitBlocks s.ctx.rateBytes outLen outLen
        (padAndPermute s.ctx.buffer s.ctx.offset.toNat s.ctx.rateBytes s.ctx.suffix)).2 ∧
      out.length = outLen ∧ execFinal outLen s = .next (s.complete (.cleared .finalized) out) := by
  obtain ⟨-, h2, h3, h4, h5⟩ := h.numbers
  obtain ⟨r, hr, he, hl⟩ := squeeze_completes s.ctx outLen s.ctx.suffix h2 (by omega) (by omega) h5
  refine ⟨r.2, by rw [he]; rfl, hl, ?_⟩
  rw [execFinal_live _ h.is_live, hlen, hr]
  rfl

/-- `HASH` in a live phase (R90). -/
theorem execHash_live (outLen : Nat) (input : List Byte) (n : Nat) (m : Mode) {s : State}
    (h : s.ctx.phase.isLive = true) : execHash outLen input n m s = .next s.raiseUsageError := by
  simp [execHash, h]

/-- `HASH` with an operand check that fails (R99). -/
theorem execHash_invalid (outLen : Nat) (input : List Byte) (n : Nat) (m : Mode) {s : State}
    (h : s.ctx.phase.isLive = false) (hbad : legal m n = false ∨ outLenMismatches m outLen n = true) :
    ∃ cause, execHash outLen input n m s = .next (s.raiseParameterError cause) := by
  cases hl : legal m n
  · exact ⟨.unsupportedOutputBitSize, by simp [execHash, h, hl]⟩
  · have hm : outLenMismatches m outLen n = true := by simpa [hl] using hbad
    exact ⟨.outLenMismatch, by simp [execHash, h, hl, hm]⟩

/-- `HASH` with both checks passed completes, whatever the context held before (R99). -/
theorem execHash_completes (outLen : Nat) (input : List Byte) {n : Nat} {m : Mode} {s : State}
    (h : s.ctx.phase.isLive = false) (hl : legal m n = true) (hm : outLenMismatches m outLen n = false) :
    ∃ b out, absorbBytes ((1600 - 2 * n) / 8) input .zero 0 =
        .done (b, input.length % ((1600 - 2 * n) / 8)) ∧
      out = (emitBlocks ((1600 - 2 * n) / 8) outLen outLen
        (padAndPermute b (input.length % ((1600 - 2 * n) / 8)) ((1600 - 2 * n) / 8) (suffixOf m))).2 ∧
      out.length = outLen ∧ execHash outLen input n m s = .next (s.complete (.cleared .finalized) out) := by
  obtain ⟨hr, hc, -⟩ := s.ctx.start_numbers hl
  have hn : (n = 224 ∨ n = 256 ∨ n = 384 ∨ n = 512) ∨ (n = 128 ∨ n = 256) := by
    rcases (legal_iff m n).1 hl with ⟨-, h⟩ | ⟨-, h⟩
    · exact .inl h
    · exact .inr h
  have ho : (s.ctx.start n m).offset.toNat = 0 := by simp
  obtain ⟨b, hb, ha⟩ := absorb_completes (s.ctx.start n m) input (rate := 1600 - 2 * n) (cap := 2 * n) (by omega)
    (by omega) (by omega) (by rw [ho]; omega)
  rw [ho, Nat.zero_add] at hb ha
  have hmod : input.length % ((1600 - 2 * n) / 8) < (1600 - 2 * n) / 8 := Nat.mod_lt _ (by omega)
  have hoff : (BitVec.ofNat 8 (input.length % ((1600 - 2 * n) / 8))).toNat = input.length % ((1600 - 2 * n) / 8) := by
    rw [BitVec.toNat_ofNat]; exact Nat.mod_eq_of_lt (by omega)
  obtain ⟨r, hr', he, hlen⟩ := squeeze_completes
    { s.ctx.start n m with buffer := b, offset := BitVec.ofNat 8 (input.length % ((1600 - 2 * n) / 8)) }
    outLen (rate := 1600 - 2 * n) (suffixOf m) (by omega) (by omega) (by omega) (by simp only [hoff]; omega)
  simp only [hoff] at he
  refine ⟨b, r.2, hb, by rw [he], hlen, ?_⟩
  simp only [execHash, h, hl, hm, hr, hc, Bool.not_true, Bool.false_eq_true, if_false, ha, State.continueWith_done]
  exact congrArg (fun x => s.continueWith x fun r => .next (s.complete (.cleared .finalized) r.2)) hr'

end Sys2Proof.Machine
end

