-- ==== Sys2Proof/Laws/PerInstr.lean ====
section
/-! SUPPORT. A statement about every command as syntax, one lemma per constructor: the word of a well-formed command
carries the opcode of its row of spec/opcode_table.json and no reserved bit (30_encoding.md R44, R46). -/

namespace Sys2Proof.Laws.EncodedHeader

/-- The opcode byte of a command's row (R46). -/
def opcodeOf : Instr → Nat
  | .init _ _ => 0x01
  | .update _ => 0x02
  | .final _ => 0x03
  | .hash _ _ _ _ => 0x04

def Statement (i : Instr) : Prop :=
  i.wf = true → opcodeField (encode i).word = opcodeOf i ∧ rsvField (encode i).word = 0

/-- Fields of an assembled word whose operands fit. -/
theorem assembled_fields {op mode obs len : Nat} (h1 : op < 2 ^ 8) (h2 : mode < 2) (h3 : obs < 2 ^ 16)
    (h4 : len < 2 ^ 32) :
    opcodeField (assembleWord op mode obs len) = op ∧ rsvField (assembleWord op mode obs len) = 0 ∧
      modeField (assembleWord op mode obs len) = mode ∧ obsField (assembleWord op mode obs len) = obs ∧
      lenField (assembleWord op mode obs len) = len := by
  simp only [opcodeField, rsvField, modeField, obsField, lenField, bitRange, assembleWord, BitVec.toNat_ofNat]
  omega

theorem mode_bit_lt (m : Mode) : m.bit < 2 := by cases m <;> decide

theorem init (obs : Nat) (mode : Mode) : Statement (.init obs mode) := fun h => by
  have hobs : obs < 2 ^ 16 := by simpa [Instr.wf, obsFits] using h
  have := assembled_fields (op := opInit) (by decide) (mode_bit_lt mode) hobs (len := 0) (by decide)
  exact ⟨this.1, this.2.1⟩

theorem update (data : List Byte) : Statement (.update data) := fun _ => by
  have := assembled_fields (op := opUpdate) (mode := 0) (obs := 0) (len := 0) (by decide) (by decide) (by decide)
    (by decide)
  exact ⟨this.1, this.2.1⟩

theorem final (outLen : Nat) : Statement (.final outLen) := fun h => by
  have hlen : outLen < 2 ^ 32 := by simpa [Instr.wf, lenFits] using h
  have := assembled_fields (op := opFinal) (mode := 0) (obs := 0) (by decide) (by decide) (by decide) hlen
  exact ⟨this.1, this.2.1⟩

theorem hash (outLen : Nat) (input : List Byte) (obs : Nat) (mode : Mode) : Statement (.hash outLen input obs mode) :=
  fun h => by
    have hb : outLen < 2 ^ 32 ∧ obs < 2 ^ 16 := by simpa [Instr.wf, lenFits, obsFits] using h
    have := assembled_fields (op := opHash) (by decide) (mode_bit_lt mode) hb.2 hb.1
    exact ⟨this.1, this.2.1⟩

end Sys2Proof.Laws.EncodedHeader
end

