-- ==== Sys2Proof/Laws/Permutation.lean ====
section
/-! SUPPORT. What each step of a round does to each lane (40_permutation.md R63 to R67). -/

namespace Sys2Proof.Machine

@[simp] theorem columnParities_getD (b : Buffer) {x : Nat} (h : x < 5) :
    (columnParities b).getD x 0 =
      b.laneAt x 0 ^^^ b.laneAt x 1 ^^^ b.laneAt x 2 ^^^ b.laneAt x 3 ^^^ b.laneAt x 4 := by
  simp [columnParities, h]

@[simp] theorem thetaEffect_getD (c : List Lane) {x : Nat} (h : x < 5) :
    (thetaEffect c).getD x 0 = rotl64 (c.getD ((x + 1) % 5) 0) 1 ^^^ c.getD ((x + 4) % 5) 0 := by
  simp [thetaEffect, h]

theorem theta_lane (b : Buffer) {i : Nat} (h : i < 25) :
    (theta b).lane i = b.lane i ^^^ (thetaEffect (columnParities b)).getD (i % 5) 0 :=
  Buffer.lane_tabulate _ h

theorem rho_lane (b : Buffer) {i : Nat} (h : i < 25) : (rho b).lane i = rotl64 (b.lane i) (rhoOffset i) :=
  Buffer.lane_tabulate _ h

theorem pi_lane (b : Buffer) {j : Nat} (h : j < 25) : (pi b).lane j = b.lane (piTable.idxOf j) :=
  Buffer.lane_tabulate _ h

theorem chi_lane (b : Buffer) {i : Nat} (h : i < 25) :
    (chi b).lane i =
      b.lane i ^^^ (~~~ b.laneAt ((i % 5 + 1) % 5) (i / 5) &&& b.laneAt ((i % 5 + 2) % 5) (i / 5)) :=
  Buffer.lane_tabulate _ h

theorem iota_lane_zero (r : Nat) (b : Buffer) : (iota r b).lane 0 = b.lane 0 ^^^ roundConstant r :=
  Buffer.lane_setLane_same _ _ (by decide)

theorem iota_lane_ne (r : Nat) (b : Buffer) {i : Nat} (h : i ≠ 0) : (iota r b).lane i = b.lane i :=
  Buffer.lane_setLane_ne _ _ (Ne.symm h)

end Sys2Proof.Machine
end

