-- ==== Sys2Proof/Laws/Step.lean ====
section
/-! SUPPORT. What one step does for each host event (00_scope.md R11, 30_encoding.md R43). -/

namespace Sys2Proof.Machine

theorem step_nothing {s : State} (h : s.pending = []) : step s = .next s := by
  rw [step, State.takeEvent_none h]

theorem step_reset {s : State} {rest : List HostEvent} (h : s.pending = .reset :: rest) :
    step s = .next ({ s with pending := rest } : State).applyReset := by
  rw [step, State.takeEvent_some h]

theorem step_legal {s : State} {t : Transaction} {rest : List HostEvent} {i : Instr}
    (h : s.pending = .command t :: rest) (hd : decode t = .ok i) : step s = exec i { s with pending := rest } := by
  simp only [step, State.takeEvent_some h, hd]

theorem step_illegal {s : State} {t : Transaction} {rest : List HostEvent} {e : DecodeError}
    (h : s.pending = .command t :: rest) (hd : decode t = .error e) :
    step s = .next (({ s with pending := rest } : State).raiseIllegalCommand e) := by
  simp only [step, State.takeEvent_some h, hd]

/-- Everything a step can be. -/
theorem step_cases (s : State) :
    (s.pending = [] ∧ step s = .next s) ∨
    (∃ rest, s.pending = .reset :: rest ∧ step s = .next ({ s with pending := rest } : State).applyReset) ∨
    (∃ t rest i, s.pending = .command t :: rest ∧ decode t = .ok i ∧ step s = exec i { s with pending := rest }) ∨
    (∃ t rest e, s.pending = .command t :: rest ∧ decode t = .error e ∧
      step s = .next (({ s with pending := rest } : State).raiseIllegalCommand e)) := by
  cases hp : s.pending with
  | nil => exact .inl ⟨rfl, step_nothing hp⟩
  | cons e rest =>
    cases e with
    | reset => exact .inr (.inl ⟨rest, rfl, step_reset hp⟩)
    | command t =>
      cases hd : decode t with
      | ok i => exact .inr (.inr (.inl ⟨t, rest, i, rfl, hd, step_legal hp hd⟩))
      | error e => exact .inr (.inr (.inr ⟨t, rest, e, rfl, hd, step_illegal hp hd⟩))

end Sys2Proof.Machine
end

