-- ==== Sys2Proof/Tests/Slice0.lean ====
section
/-! SUPPORT. Tests of the model. Expected values come from the spec's own examples and from the vectors of
95_test_vectors.md (named V1, V2, ... in the docstrings), never from the model. The second half holds a named witness
for the hypotheses of each statement of Certificates/Slice0/Obligations.lean. -/

namespace Sys2Proof.Tests

open Sys2Proof.Machine

/-! ## Well-formedness: one ill-formed term for each operand check (30_encoding.md R48, R49) -/

theorem test_init_obs_too_wide : (Instr.init 65536 .sha3).wf = false := by decide
theorem test_final_len_too_wide : (Instr.final 4294967296).wf = false := by decide
theorem test_hash_len_too_wide : (Instr.hash 4294967296 [] 256 .shake).wf = false := by decide
theorem test_hash_obs_too_wide : (Instr.hash 0 [] 65536 .shake).wf = false := by decide
theorem test_widest_operands_are_well_formed :
    (Instr.init 65535 .shake).wf && (Instr.final 4294967295).wf && (Instr.update []).wf &&
      (Instr.hash 4294967295 [0x61] 65535 .sha3).wf = true := by decide

/-! ## Decoding: words written out from the fields of R44 (R58, V16) -/

theorem test_decode_init : decode ⟨0x0101008000000000, []⟩ = .ok (.init 128 .shake) := by decide
theorem test_decode_init_widest_obs : decode ⟨0x0100FFFF00000000, []⟩ = .ok (.init 65535 .sha3) := by decide
theorem test_decode_update : decode ⟨0x0200000000000000, [0x61, 0x62]⟩ = .ok (.update [0x61, 0x62]) := by decide
theorem test_decode_final : decode ⟨0x03000000FFFFFFFF, []⟩ = .ok (.final 4294967295) := by decide
theorem test_decode_hash : decode ⟨0x04010080000000C8, [0x61]⟩ = .ok (.hash 200 [0x61] 128 .shake) := by decide
theorem test_decode_hash_sha3 : decode ⟨0x040000E00000001C, []⟩ = .ok (sha3_224 []) := by decide

theorem test_zero_word_illegal : decode ⟨0x0000000000000000, []⟩ = .error (.unknownOpcode 0) := by decide
theorem test_opcode_5_illegal : decode ⟨0x0500000000000000, []⟩ = .error (.unknownOpcode 5) := by decide
theorem test_opcode_ff_illegal : decode ⟨0xFF00000000000000, []⟩ = .error (.unknownOpcode 255) := by decide
theorem test_reserved_low_bit_illegal : decode ⟨0x0102010000000000, []⟩ = .error .reservedBits := by decide
theorem test_reserved_high_bit_illegal : decode ⟨0x0180010000000000, []⟩ = .error .reservedBits := by decide
theorem test_hash_reserved_illegal : decode ⟨0x0402010000000020, []⟩ = .error .reservedBits := by decide
theorem test_init_len_illegal : decode ⟨0x0100010000000001, []⟩ = .error .unusedField := by decide
theorem test_update_len_illegal : decode ⟨0x0200000000000001, []⟩ = .error .unusedField := by decide
theorem test_update_mode_illegal : decode ⟨0x0201000000000000, []⟩ = .error .unusedField := by decide
theorem test_final_obs_illegal : decode ⟨0x0300010000000020, []⟩ = .error .unusedField := by decide
theorem test_final_mode_illegal : decode ⟨0x0301000000000020, []⟩ = .error .unusedField := by decide
theorem test_init_payload_illegal : decode ⟨0x0100010000000000, [0]⟩ = .error .payloadNotAllowed := by decide
theorem test_final_payload_illegal : decode ⟨0x0300000000000020, [0]⟩ = .error .payloadNotAllowed := by decide

/-- R56, R58: the words of commands, encoded. -/
theorem test_encode :
    encode (.init 384 .sha3) = ⟨0x0100018000000000, []⟩ ∧ encode (.update [7]) = ⟨0x0200000000000000, [7]⟩ ∧
      encode (.final 28) = ⟨0x030000000000001C, []⟩ ∧ encode (sha3_512 []) = ⟨0x0400020000000040, []⟩ ∧
      encode (shake256 [7] 200) = ⟨0x04010100000000C8, [7]⟩ := by decide

theorem test_table_word : decodeTableWord 64 0x0300000000000014 = some (.final 20) := by decide
theorem test_table_word_too_long : decodeTableWord 72 0x0300000000000014 = none := by decide

/-- Status codes (R54) and phase codes (10_state.md R20). -/
theorem test_codes :
    (Status.ok.code, Status.errParam.code, Status.errUsage.code, Status.errIllegal.code) = (0x00, 0x01, 0x02, 0x03) ∧
      (Phase.uninitialized.code, Phase.initialized.code, Phase.absorbing.code, Phase.finalized.code) = (0, 1, 2, 3) := by
  decide

/-! ## Lanes, bytes, rotation -/

/-- The buffer with `S[k] = k` (V4). -/
def counting : Buffer := .tabulate fun i => BitVec.ofNat 64 (0x0706050403020100 + i * 0x0808080808080808)

theorem test_counting_bytes : ∀ k < 200, counting.byte k = BitVec.ofNat 8 k := by decide +kernel

/-- 20_memory.md R31, the example. -/
theorem test_byte_writes_show_in_lanes :
    ((Buffer.zero.setByte 3 0x06).setByte 135 0x80).lane 0 = 0x0000000006000000 ∧
      ((Buffer.zero.setByte 3 0x06).setByte 135 0x80).lane 16 = 0x8000000000000000 := by decide +kernel

theorem test_rotl64 :
    rotl64 0x8000000000000001 1 = 3 ∧ rotl64 0x0123456789ABCDEF 64 = 0x0123456789ABCDEF ∧
      rotl64 0x0123456789ABCDEF 65 = 0x02468ACF13579BDE ∧ rotl64 0x0123456789ABCDEF 36 = 0x9ABCDEF012345678 := by
  decide +kernel

/-! ## The permutation (V1, V4) -/

/-- The lanes after `THETA` of the counting state. -/
def afterTheta : List Lane :=
  [0xDEDCDAD8D6D4D2D0, 0x464442404E4C4A48, 0x666462606E6C6A68, 0xE6E4E2E0EEECEAE8, 0x777573717F7D7B79,
   0xF6F4F2F0FEFCFAF8, 0x7E7C7A7876747270, 0x4E4C4A4846444240, 0xBEBCBAB8B6B4B2B0, 0x1F1D1B1917151311,
   0x8E8C8A8886848280, 0x161412101E1C1A18, 0x161412101E1C1A18, 0x969492909E9C9A98, 0x272523212F2D2B29,
   0xA6A4A2A0AEACAAA8, 0xCECCCAC8C6C4C2C0, 0xFEFCFAF8F6F4F2F0, 0x6E6C6A6866646260, 0xCFCDCBC9C7C5C3C1,
   0x7E7C7A7876747270, 0xE6E4E2E0EEECEAE8, 0xC6C4C2C0CECCCAC8, 0x464442404E4C4A48, 0x979593919F9D9B99]

/-- After `RHO` of that. -/
def afterRho : List Lane :=
  [0xDEDCDAD8D6D4D2D0, 0x8C8884809C989490, 0x199918981B9B1A9A, 0x0EEECEAE8E6E4E2E, 0x8BFBEBDBCBBBAB9B,
   0xEFCFAF8F6F4F2F0F, 0x472707E7C7A78767, 0x9312921191109013, 0x585F5E5D5C5B5A59, 0xB19171513111F1D1,
   0x7464544434241404, 0x5048407870686058, 0xE0D0C0B0A09080F0, 0x213D3935312D2925, 0x9695949392919097,
   0x5955514D4945415D, 0x985819D9995918D8, 0x7D7C7B7A79787F7E, 0x4D0CCC8C4C0DCD8D, 0xCDCBC9C7C5C3C1CF,
   0xE9E1D9D1C9C1F9F1, 0x9B938B83BBB3ABA3, 0x18D8985819D99959, 0x48464442404E4C4A, 0x64E467E766E665E5]

/-- After `PI` of that. -/
def afterPi : List Lane :=
  [0xDEDCDAD8D6D4D2D0, 0x472707E7C7A78767, 0xE0D0C0B0A09080F0, 0x4D0CCC8C4C0DCD8D, 0x64E467E766E665E5,
   0x0EEECEAE8E6E4E2E, 0xB19171513111F1D1, 0x7464544434241404, 0x985819D9995918D8, 0x18D8985819D99959,
   0x8C8884809C989490, 0x9312921191109013, 0x213D3935312D2925, 0xCDCBC9C7C5C3C1CF, 0xE9E1D9D1C9C1F9F1,
   0x8BFBEBDBCBBBAB9B, 0xEFCFAF8F6F4F2F0F, 0x5048407870686058, 0x7D7C7B7A79787F7E, 0x48464442404E4C4A,
   0x199918981B9B1A9A, 0x585F5E5D5C5B5A59, 0x9695949392919097, 0x5955514D4945415D, 0x9B938B83BBB3ABA3]

/-- After `CHI` of that. -/
def afterChi : List Lane :=
  [0x7E0C1AC8F6C4D240, 0x4A2B0BEB8BAACA6A, 0xC030E3D38272A090, 0xD7145494DC1D5F9D, 0x65C762C067C560C2,
   0x4A8ACAAA8A4A4A2A, 0x398978C8B848F909, 0x74E4D44434A49505, 0x9E7E5F7F1F7F5EFE, 0xA9C9A90928C82888,
   0xACA5ADA4BCB5BDB4, 0x5FD052D355D250D9, 0x011D2925392D1115, 0xC9C3CDC7D1DBC5CF, 0xFAF3CBC0C8C1F9F2,
   0x9BFBABABDB9BEBCB, 0xC2FB948D665F3029, 0x504A4478706E6058, 0xFEC5D0E3F2C9DCEF, 0x2C424046640A484E,
   0x9F19981A991B9A1C, 0x111F1F11151F1B11, 0x14171E1120233A35, 0x595D4155494D5145, 0xDBD5CDC6FFF3EBE2]

theorem test_theta : (theta counting).lanes.toList = afterTheta := by decide +kernel
theorem test_rho : (rho ⟨⟨afterTheta.toArray, rfl⟩⟩).lanes.toList = afterRho := by decide +kernel
theorem test_pi : (pi ⟨⟨afterRho.toArray, rfl⟩⟩).lanes.toList = afterPi := by decide +kernel
theorem test_chi : (chi ⟨⟨afterPi.toArray, rfl⟩⟩).lanes.toList = afterChi := by decide +kernel
theorem test_iota : (iota 0 ⟨⟨afterChi.toArray, rfl⟩⟩).lane 0 = 0x7E0C1AC8F6C4D241 := by decide +kernel
theorem test_rhoPi : (rhoPi ⟨⟨afterTheta.toArray, rfl⟩⟩).lanes.toList = afterPi := by decide +kernel

/-- V1: lanes 0, 1 and 24 after `PERMUTE` of the all-zero state. -/
theorem test_permute_zero :
    ((permute .zero).lane 0, (permute .zero).lane 1, (permute .zero).lane 24) =
      (0xF1258F7940E1DDE7, 0x84D5CCF933C0478A, 0xEAF1FF7B5CECA249) := by decide +kernel

/-- 40_permutation.md R64, R67: the printed tables are the generated ones. -/
theorem test_tables_generated :
    (∀ p ∈ rhoWalk 24 0 1 0, rhoOffset p.1 = p.2) ∧ (∀ r < 24, roundConstant r = generatedRoundConstant r) := by
  decide +kernel

/-! ## States the tests start from -/

/-- The message "abc". -/
def abc : List Byte := [0x61, 0x62, 0x63]

/-- "live" of V15: after `init(256, SHA3); update("abc")`. -/
def liveSha3 : Context where
  buffer := Buffer.zero.setLane 0 0x636261
  rate := 1088
  capacity := 512
  suffix := 0x06
  offset := 3
  mode := .sha3
  obs := 256
  phase := .absorbing

/-- The same with one byte left in the block. -/
def liveFull : Context := { liveSha3 with offset := 135 }

/-- After `init(128, SHAKE)`. -/
def liveShake : Context where
  buffer := .zero
  rate := 1344
  capacity := 256
  suffix := 0x1F
  offset := 0
  mode := .shake
  obs := 128
  phase := .initialized

/-- An idle phase with other data in the registers: a context no run reaches. -/
def strayIdle : Context := { liveSha3 with phase := .finalized }

/-- The machine in context `c`, with `events` to come and nothing answered yet. -/
def machine (c : Context) (events : List HostEvent) : State := ⟨c, events, []⟩

/-- A command word with its payload, presented. -/
def presented (w : CommandWord) (payload : List Byte) : HostEvent := .command ⟨w, payload⟩

/-- The context and the responses after one step; nothing if it stopped. -/
def after (s : State) : Option (Context × List Response) :=
  match step s with
  | .next t => some (t.ctx, t.responses)
  | .fault _ => none
  | .refused _ => none

/-! ## One step of each command (V10, V15) -/

/-- `init(384, SHA3)` on a live context. -/
theorem test_init_abandons :
    after (machine liveSha3 [presented 0x0100018000000000 []]) =
      some (⟨.zero, 832, 768, 0x06, 0, .sha3, 384, .initialized⟩, [⟨.ok, []⟩]) := by decide +kernel

/-- `init(200, SHA3)` on a live context. -/
theorem test_init_unsupported :
    after (machine liveSha3 [presented 0x010000C800000000 []]) = some (.reset, [⟨.errParam, []⟩]) := by decide +kernel

/-- `update("abc")` after `init(256, SHA3)`. -/
theorem test_update_abc :
    after (machine ⟨.zero, 1088, 512, 0x06, 0, .sha3, 256, .initialized⟩ [presented 0x0200000000000000 abc]) =
      some (liveSha3, [⟨.ok, []⟩]) := by decide +kernel

/-- `update("abc")` on an idle context. -/
theorem test_update_misuse :
    after (machine (.cleared .finalized) [presented 0x0200000000000000 abc]) =
      some (.cleared .finalized, [⟨.errUsage, []⟩]) := by decide +kernel

/-- V10: SHA3-256("abc"). -/
def digestAbc : List Byte :=
  [0x3A, 0x98, 0x5D, 0xA7, 0x4F, 0xE2, 0x25, 0xB2, 0x04, 0x5C, 0x17, 0x2D, 0x6B, 0xD3, 0x90, 0xBD,
   0x85, 0x5F, 0x08, 0x6E, 0x3E, 0x9D, 0x52, 0x5B, 0x46, 0xBF, 0xE2, 0x45, 0x11, 0x43, 0x15, 0x32]

/-- `final(32)` on the live context. -/
theorem test_final_abc :
    after (machine liveSha3 [presented 0x0300000000000020 []]) =
      some (⟨.zero, 0, 0, 0, 0, .sha3, 0, .finalized⟩, [⟨.ok, digestAbc⟩]) := by decide +kernel

/-- `final(20)` on the live context. -/
theorem test_final_mismatch :
    after (machine liveSha3 [presented 0x0300000000000014 []]) = some (.reset, [⟨.errParam, []⟩]) := by decide +kernel

/-- `hash(32, "abc", 256, SHA3)` on an idle context with stray data in its registers. -/
theorem test_hash_abc :
    after (machine strayIdle [presented 0x0400010000000020 abc]) =
      some (⟨.zero, 0, 0, 0, 0, .sha3, 0, .finalized⟩, [⟨.ok, digestAbc⟩]) := by decide +kernel

/-- `hash(20, "abc", 224, SHA3)` on a live context: the phase check comes first (60_exceptions.md R116). -/
theorem test_hash_while_live :
    after (machine liveSha3 [presented 0x040000E000000014 abc]) = some (liveSha3, [⟨.errUsage, []⟩]) := by decide +kernel

/-- `UPDATE` with `len` not zero is illegal in every phase. -/
theorem test_illegal_keeps_context :
    after (machine liveSha3 [presented 0x0200000000000001 []]) = some (liveSha3, [⟨.errIllegal, []⟩]) := by
  decide +kernel

theorem test_reset_event : after (machine liveSha3 [.reset]) = some (.reset, []) := by decide +kernel

/-- The very first step after reset runs the word placed by `withFetchWord`. -/
theorem test_fetch_word :
    after (State.reset.withFetchWord 64 0x0101010000000000) =
      some (⟨.zero, 1088, 512, 0x1F, 0, .shake, 256, .initialized⟩, [⟨.ok, []⟩]) := by decide +kernel

/-! ## The micro-operations (V11, V13) -/

/-- 137 zero bytes from offset 0: one block and one byte; the buffer is V1's. -/
theorem test_absorb_across_block :
    absorb (.cleared .initialized) (List.replicate 137 0) 1088 512 =
      .done { Context.cleared .initialized with buffer := permute .zero, offset := 1 } := by decide +kernel

theorem test_absorb_checks :
    absorb liveSha3 [] 1096 512 = .raised .rateCapacitySum ∧ absorb liveSha3 [] 12 1588 = .raised .rateNotPositiveMultipleOf8 ∧
      absorb liveSha3 [] 0 1600 = .raised .rateNotPositiveMultipleOf8 := by decide +kernel

/-- V13, `rate = 1600`, `OFFSET = 199`, suffix `0x86`: the edge case fires. -/
theorem test_squeeze_edge_case :
    (match squeeze { Context.cleared .absorbing with offset := 199 } 4 1600 0x86 with
     | .done (_, out) => out
     | _ => []) = [0xD1, 0x4E, 0xC6, 0xFD] := by decide +kernel

theorem test_squeeze_precondition : squeeze (.cleared .absorbing) 4 0 0x06 = .refused .squeezePrecondition := by decide

/-! ## Witnesses: concrete states and operands that meet the hypotheses of each statement -/

theorem liveSha3_live : liveSha3.Live where
  phase := .inr rfl
  parameters := by decide
  capacity := by decide
  rate := by decide
  suffix := by decide
  offset := by decide
  fresh := nofun

/-- The live context at the last offset of its block. -/
theorem liveFull_live : liveFull.Live where
  phase := .inr rfl
  parameters := by decide
  capacity := by decide
  rate := by decide
  suffix := by decide
  offset := by decide
  fresh := nofun

theorem liveShake_live : liveShake.Live where
  phase := .inl rfl
  parameters := by decide
  capacity := by decide
  rate := by decide
  suffix := by decide
  offset := by decide
  fresh _ := ⟨fun _ _ => Buffer.byte_zero _, rfl⟩

theorem finalized_idle : (Context.cleared .finalized).Idle := Context.cleared_idle (.inr rfl)

/-- DecodeOfEncode: the widest operands of each command are well formed. -/
theorem witness_DecodeOfEncode :
    (Instr.init 65535 .shake).wf = true ∧ (Instr.update abc).wf = true ∧ (Instr.final 4294967295).wf = true ∧
      (Instr.hash 4294967295 abc 65535 .sha3).wf = true := by decide

/-- EncodeOfDecode, StepRunsDecodedCommand: a presented transaction that decodes. -/
theorem witness_StepRunsDecodedCommand :
    (machine liveSha3 [presented 0x0200000000000000 abc]).pending = .command ⟨0x0200000000000000, abc⟩ :: [] ∧
      decode ⟨0x0200000000000000, abc⟩ = .ok (.update abc) := by decide

/-- PatternsPairwiseDisjoint: a word one pattern selects. -/
theorem witness_PatternsPairwiseDisjoint :
    (⟨0x0300000000000000, 0xFFFFFFFF00000000⟩ : OpcodePattern) ∈ opcodePatterns ∧
      (⟨0x0300000000000000, 0xFFFFFFFF00000000⟩ : OpcodePattern).selects 0x0300000000000020 = true := by decide

/-- IllegalExactlyByItems: one presented transaction for each item of R51. -/
theorem witness_IllegalExactlyByItems :
    (machine liveSha3 [presented 0 []]).pending = .command ⟨0, []⟩ :: [] ∧ IllegalTransaction ⟨0, []⟩ ∧
      IllegalTransaction ⟨0x0102010000000000, []⟩ ∧ IllegalTransaction ⟨0x0200000000000001, []⟩ ∧
      IllegalTransaction ⟨0x0300000000000020, abc⟩ :=
  ⟨rfl, .inl (.inl (.inl (by decide))), .inl (.inr (.inl (by decide))),
    .inl (.inr (.inr (.inr (.inl (by decide))))), .inr (by decide)⟩

/-- ResetFromAnyState, NothingHappensUnasked. -/
theorem witness_ResetFromAnyState :
    (machine liveSha3 [.reset]).pending = .reset :: [] ∧ (machine liveSha3 []).pending = [] := by decide

/-- InitStartsOrResets: legal pairs at both ends of each mode, and pairs that are legal only under the other mode. -/
theorem witness_InitStartsOrResets :
    LegalPair .sha3 224 ∧ LegalPair .sha3 512 ∧ LegalPair .shake 128 ∧ LegalPair .shake 256 ∧
      ¬ LegalPair .sha3 128 ∧ ¬ LegalPair .shake 512 ∧ ¬ LegalPair .sha3 0 := by
  simp [LegalPair]

/-- InitForgetsThePast: two machines in different contexts, both with a next state. -/
theorem witness_InitForgetsThePast :
    ∃ t v, exec (.init 256 .sha3) (machine liveShake []) = .next t ∧
      exec (.init 256 .sha3) (machine liveSha3 []) = .next v ∧ liveShake ≠ liveSha3 :=
  ⟨_, _, rfl, rfl, by decide⟩

/-- UpdateAbsorbs, FinalSqueezesAndClears, HashRunsWholeComputation: the phases in which each is a `UsageError`. -/
theorem witness_UsageErrors :
    (machine strayIdle []).ctx.phase = .finalized ∧ (machine .reset []).ctx.phase = .uninitialized ∧
      (machine liveSha3 []).ctx.phase = .absorbing ∧ (machine liveShake []).ctx.phase = .initialized := by decide

/-- UpdateAbsorbs, UpdateOneByte, EmptyUpdateOnlyNamesThePhase, UpdateChunking: live, with the block completed by
one byte and not completed by it. -/
theorem witness_UpdateOneByte :
    (machine liveFull []).ctx.Live ∧ (machine liveFull []).ctx.offset.toNat + 1 = (machine liveFull []).ctx.rate.toNat / 8 ∧
      (machine liveSha3 []).ctx.Live ∧
      (machine liveSha3 []).ctx.offset.toNat + 1 ≠ (machine liveSha3 []).ctx.rate.toNat / 8 :=
  ⟨liveFull_live, by decide, liveSha3_live, by decide⟩

/-- UpdateInsideABlock: a payload that stops one byte short of the block, and an address on each side of it. -/
theorem witness_UpdateInsideABlock :
    liveSha3.Live ∧ liveSha3.offset.toNat + (List.replicate 132 (0xFF : Byte)).length < liveSha3.rate.toNat / 8 ∧
      131 < (List.replicate 132 (0xFF : Byte)).length ∧ 2 < liveSha3.offset.toNat ∧
      liveSha3.offset.toNat + (List.replicate 132 (0xFF : Byte)).length ≤ 135 := by
  refine ⟨liveSha3_live, ?_⟩
  decide +kernel

/-- UpdateOffsetLaw: a live machine on which `UPDATE` has a next state. -/
theorem witness_UpdateOffsetLaw : liveFull.Live ∧ ∃ t, exec (.update abc) (machine liveFull []) = .next t := by
  obtain ⟨b, -, h⟩ := execUpdate_completes (s := machine liveFull []) abc liveFull_live
  exact ⟨liveFull_live, _, h⟩

/-- FinalSqueezesAndClears: the right and a wrong `outLen` under SHA3, any under SHAKE. -/
theorem witness_FinalSqueezesAndClears :
    liveSha3.Live ∧ (liveSha3.mode = .sha3 → 32 = liveSha3.obs.toNat / 8) ∧
      (liveSha3.mode = .sha3 ∧ 31 ≠ liveSha3.obs.toNat / 8) ∧
      liveShake.Live ∧ (liveShake.mode = .sha3 → 0 = liveShake.obs.toNat / 8) :=
  ⟨liveSha3_live, by decide, by decide, liveShake_live, by decide⟩

/-- FinalLeavesNoResidue: with an output and with an error. -/
theorem witness_FinalLeavesNoResidue :
    (machine liveSha3 []).Inv ∧ (∃ t, exec (.final 32) (machine liveSha3 []) = .next t) ∧
      ∃ t, exec (.final 31) (machine liveSha3 []) = .next t := by
  obtain ⟨_, -, -, h⟩ := execFinal_completes (s := machine liveSha3 []) 32 liveSha3_live (by decide)
  exact ⟨.inr liveSha3_live, ⟨_, h⟩, _, rfl⟩

/-- FailedFinalLosesTheComputation. -/
theorem witness_FailedFinalLosesTheComputation :
    (machine liveSha3 []).ctx.Live ∧ liveSha3.mode = .sha3 ∧ 20 ≠ liveSha3.obs.toNat / 8 :=
  ⟨liveSha3_live, rfl, by decide⟩

/-- ShakePrefixStability: one block and the byte after it. -/
theorem witness_ShakePrefixStability : (machine liveShake []).ctx.Live ∧ liveShake.mode = .shake ∧ 168 ≤ 169 :=
  ⟨liveShake_live, rfl, by decide⟩

/-- HashRunsWholeComputation, HashIsTheSponge: a context no run reaches, and the checks passed and failed. -/
theorem witness_HashRunsWholeComputation :
    ((machine strayIdle []).ctx.phase = .uninitialized ∨ (machine strayIdle []).ctx.phase = .finalized) ∧
      LegalPair .sha3 256 ∧ (Mode.sha3 = .sha3 → 32 = 256 / 8) ∧ LegalPair .shake 128 ∧
      (Mode.shake = .sha3 → 0 = 128 / 8) ∧ ¬ LegalPair .sha3 200 ∧ (Mode.sha3 = .sha3 ∧ 20 ≠ 224 / 8) := by
  refine ⟨.inr rfl, ?_⟩
  simp [LegalPair]

/-- HashEqualsStreamedSequence. -/
theorem witness_HashEqualsStreamedSequence :
    (machine (.cleared .finalized) []).ctx.Idle ∧ LegalPair .shake 256 ∧ (Mode.shake = .sha3 → 64 = 256 / 8) :=
  ⟨finalized_idle, .inr ⟨rfl, .inr rfl⟩, nofun⟩

/-- LifecycleTable: a refused and an accepted command, the accepted one with a next state. -/
theorem witness_LifecycleTable :
    lifecycle (.final 32) .finalized = none ∧ lifecycle (.init 384 .sha3) (machine liveSha3 []).ctx.phase = some .initialized ∧
      ∃ t, exec (.init 384 .sha3) (machine liveSha3 []) = .next t :=
  ⟨rfl, rfl, _, rfl⟩

/-- ParameterErrorResetsContext: a command that ends with `ERR_PARAM`. -/
theorem witness_ParameterErrorResetsContext :
    ∃ t r, exec (.final 0) (machine liveSha3 []) = .next t ∧ t.responses = (machine liveSha3 []).responses ++ [r] ∧
      r.status = .errParam :=
  ⟨_, _, rfl, rfl, rfl⟩

/-- EveryTransactionGetsOneResponse, StepKeepsInvariant, NoStepStopsUnderInvariant: a live machine with a transaction
to come, whose step has a next state. -/
theorem witness_StepKeepsInvariant :
    (machine liveSha3 [presented 0x0300000000000014 []]).Inv ∧
      (machine liveSha3 [presented 0x0300000000000014 []]).pending = .command ⟨0x0300000000000014, []⟩ :: [] ∧
      decode ⟨0x0300000000000014, []⟩ = .ok (.final 20) ∧
      ∃ t, step (machine liveSha3 [presented 0x0300000000000014 []]) = .next t :=
  ⟨.inr liveSha3_live, rfl, by decide, _, rfl⟩

/-- EveryTransactionGetsOneResponse: a transaction that is answered `OK`. -/
theorem witness_EveryTransactionGetsOneResponse :
    (machine liveSha3 [presented 0x0300000000000020 []]).Inv ∧ decode ⟨0x0300000000000020, []⟩ = .ok (.final 32) ∧
      ∃ t, step (machine liveSha3 [presented 0x0300000000000020 []]) = .next t := by
  obtain ⟨_, -, -, h⟩ := execFinal_completes (s := machine liveSha3 []) 32 liveSha3_live (by decide)
  exact ⟨.inr liveSha3_live, by decide, _, (step_legal (i := .final 32) rfl (by decide)).trans h⟩

/-- IdleRegistersAreUnobservable: two machines with different idle registers, and a run of one of them. -/
theorem witness_IdleRegistersAreUnobservable :
    (machine strayIdle [.reset]).SameToHost (machine (.cleared .finalized) [.reset]) ∧
      strayIdle ≠ .cleared .finalized ∧ ∃ s', Host.Core.run Sys2Proof.core 2 (machine strayIdle [.reset]) = .next s' :=
  ⟨⟨rfl, rfl, .inr ⟨rfl, rfl⟩⟩, by decide, _, rfl⟩

/-- StreamedRunIsTheSponge: a queue of two chunks, with an event after it. -/
theorem witness_StreamedRunIsTheSponge :
    LegalPair .sha3 256 ∧ (Mode.sha3 = .sha3 → 32 = 256 / 8) ∧ 32 < 2 ^ 32 ∧
      (machine liveShake [presented 0x0100010000000000 [], presented 0x0200000000000000 abc,
          presented 0x0200000000000000 [], presented 0x0300000000000020 [], .reset]).pending =
        .command (encode (.init 256 .sha3)) ::
          ([abc, []].map fun p => HostEvent.command (encode (.update p))) ++ .command (encode (.final 32)) :: [.reset] :=
  ⟨.inl ⟨rfl, .inr (.inl rfl)⟩, fun _ => rfl, by decide, by decide⟩

/-- RotateLeftMovesBits, BytesAndLanesAreOneStorage, WritesTouchNothingElse, ThetaFormula, ChiFormula, PiFormula,
IotaFormula, PermuteRunsRounds: the last index of each range. -/
theorem witness_ranges : (63 < 64 ∧ 63 % 64 ≠ 0) ∧ 24 < 25 ∧ 7 < 8 ∧ 199 < 200 ∧ 4 < 5 ∧ 23 < 24 ∧ (5 < 22 ∧ 22 < 24) := by decide

/-- WritesTouchNothingElse: a byte, a lane and bits on each side that the write leaves alone. -/
theorem witness_WritesTouchNothingElse :
    199 < 200 ∧ 198 ≠ 199 ∧ 23 ≠ 199 / 8 ∧ (55 < 64 ∧ 55 < 8 * (199 % 8)) ∧ (8 < 64 ∧ 8 * (192 % 8) + 8 ≤ 8) ∧
      191 < 8 * 24 ∧ 8 * 0 + 8 ≤ 8 := by decide

/-- ThetaFormula: a state that is not zero and whose columns all have even parity. -/
theorem witness_ThetaFormula :
    (∀ x < 5, columnParity ((Buffer.zero.setLane 0 5).setLane 20 5) x = 0) ∧
      (Buffer.zero.setLane 0 5).setLane 20 5 ≠ .zero := by decide +kernel

/-- ChiFormula: the last row all ones. -/
theorem witness_ChiFormula :
    ∀ x < 5, (Buffer.tabulate fun i => if i / 5 = 4 then 0xFFFFFFFFFFFFFFFF else 0).laneAt x 4 = 0xFFFFFFFFFFFFFFFF := by
  decide +kernel

/-- AbsorbValidates: each clause, at the smallest and largest rate; `liveFull_live` and `finalized_idle` meet the last
two. -/
theorem witness_AbsorbValidates :
    1600 + 1 ≠ 1600 ∧ (4 + 1596 = 1600 ∧ (4 % 8 ≠ 0 ∨ 4 < 8)) ∧ (0 + 1600 = 1600 ∧ (0 % 8 ≠ 0 ∨ 0 < 8)) ∧
      (1600 + 0 = 1600 ∧ 1600 % 8 = 0 ∧ 8 ≤ 1600 ∧ liveFull.offset.toNat < 1600 / 8) ∧
      (8 + 1592 = 1600 ∧ 8 % 8 = 0 ∧ 8 ≤ 8 ∧ liveShake.offset.toNat < 8 / 8) := by decide

/-- SqueezePrecondition: a zero rate, an offset at the end of the block, and a live context. -/
theorem witness_SqueezePrecondition :
    ¬ (0 % 8 = 0 ∧ 8 ≤ 0 ∧ 0 ≤ 1600 ∧ liveSha3.offset.toNat < 0 / 8) ∧
      ¬ (1080 % 8 = 0 ∧ 8 ≤ 1080 ∧ 1080 ≤ 1600 ∧ liveFull.offset.toNat < 1080 / 8) ∧ liveFull.Live :=
  ⟨by decide, by decide, liveFull_live⟩

/-- SqueezeOutputBytes, SqueezeFsmRefinesSqueeze, AbsorbFsmRefinesAbsorb: the edge case, and the same offset with bit 7
of the suffix clear. EdgeCaseNeverFires: that offset on a live context. -/
theorem witness_SqueezeOutputBytes :
    1088 + 512 = 1600 ∧ 1088 % 8 = 0 ∧ 8 ≤ 1088 ∧ 1088 ≤ 1600 ∧ liveFull.offset.toNat < 1088 / 8 ∧
      ((0x86 : Byte).getLsbD 7 = true ∧ liveFull.offset.toNat = 1088 / 8 - 1) ∧
      ¬ ((0x06 : Byte).getLsbD 7 = true ∧ liveFull.offset.toNat = 1088 / 8 - 1) ∧
      ¬ ((0x86 : Byte).getLsbD 7 = true ∧ liveSha3.offset.toNat = 1088 / 8 - 1) ∧ liveFull.Live :=
  ⟨by decide, by decide, by decide, by decide, by decide, by decide, by decide, by decide, liveFull_live⟩

end Sys2Proof.Tests
end

section
/-! PROOFS. Rotation and complement of lanes (00_scope.md R8). -/

namespace Sys2Proof.Machine

/-- `rotl64` is the library's rotation; its case for a multiple of 64 is the general formula at shift 0. -/
theorem rotl64_eq_rotateLeft (a : Lane) (n : Nat) : rotl64 a n = a.rotateLeft n := by
  by_cases h : n % 64 = 0
  · have hout : a >>> 64 = 0#64 := BitVec.ushiftRight_eq_zero (Nat.le_refl 64)
    simp [rotl64, BitVec.rotateLeft, BitVec.rotateLeftAux, h, hout]
  · rw [rotl64, if_neg h, BitVec.rotateLeft, BitVec.rotateLeftAux]

/-- The rule's formula on naturals: the bits shifted out at the left come back in at the right. -/
theorem toNat_rotl64 (a : Lane) {n : Nat} (h : n % 64 ≠ 0) :
    (rotl64 a n).toNat = ((a.toNat <<< (n % 64)) ||| (a.toNat >>> (64 - n % 64))) % 2 ^ 64 := by
  have hright : a.toNat >>> (64 - n % 64) < 2 ^ 64 := Nat.lt_of_le_of_lt (Nat.shiftRight_le _ _) a.isLt
  rw [rotl64, if_neg h, BitVec.toNat_or, BitVec.toNat_shiftLeft, BitVec.toNat_ushiftRight, Nat.or_mod_two_pow,
    Nat.mod_eq_of_lt hright]

/-- Bit `i` moves to bit `i + n mod 64`, either still inside the lane or wrapped around its left end. -/
theorem getLsbD_rotl64 (a : Lane) (n : Nat) {i : Nat} (hi : i < 64) :
    (rotl64 a n).getLsbD ((i + n) % 64) = a.getLsbD i := by
  rw [rotl64_eq_rotateLeft, BitVec.getLsbD_rotateLeft]
  by_cases hwrap : i + n % 64 < 64
  · have hto : (i + n) % 64 = i + n % 64 := by omega
    simp [hto, hwrap]
  · have hto : (i + n) % 64 = i + n % 64 - 64 := by omega
    have hlow : i + n % 64 - 64 < n % 64 := by omega
    have hfrom : 64 - n % 64 + (i + n % 64 - 64) = i := by omega
    simp [hto, hlow, hfrom]

/-- A multiple of 64 rotates by nothing. -/
theorem rotl64_mul_64 (a : Lane) (q : Nat) : rotl64 a (64 * q) = a := by
  rw [← rotl64_mod, Nat.mul_mod_right, rotl64_zero]

/-- Settles O33: the formula and the moved bits from the two lemmas above, the complement from the library's
exclusive-or with all ones. -/
theorem rotateLeftMovesBits : Obligations.RotateLeftMovesBits :=
  ⟨fun a _ h => toNat_rotl64 a h, fun _ => BitVec.xor_allOnes.symm, fun a n _ hi => getLsbD_rotl64 a n hi,
    fun a n => (rotl64_mod a n).symm, rotl64_mul_64⟩

end Sys2Proof.Machine
end

section
/-! PROOFS. The state after reset (10_state.md R27). -/

namespace Sys2Proof.Machine

/-- Reset leaves an idle context in the sense of R21: the cleared one with phase Uninitialized. -/
theorem State.reset_idle : State.reset.ctx.Idle := by
  rw [State.reset_ctx]
  exact Context.cleared_idle (.inl rfl)

/-- Settles O6: the reset context is idle, which fixes every register but `PHASE`; the phase is Uninitialized, code 0. -/
theorem resetValues : Obligations.ResetValues := by
  have idle := State.reset_idle
  have phase : State.reset.ctx.phase = .uninitialized := Context.cleared_phase .uninitialized
  exact ⟨idle.bytes_zero, idle.rate, idle.capacity, idle.suffix, idle.offset, congrArg Mode.bit idle.mode, idle.obs,
    congrArg Phase.code phase⟩

end Sys2Proof.Machine
end

section
/-! PROOFS. The fields of a command word, what the match and mask patterns select, and which transactions the decoder
rejects (30_encoding.md R44 to R46, R51). -/

namespace Sys2Proof.Machine

/-! ## Fields (R44) -/

theorem bitRange_and (v m hi lo : Nat) : bitRange (v &&& m) hi lo = bitRange v hi lo &&& bitRange m hi lo := by
  rw [bitRange, Nat.and_div_two_pow, Nat.and_mod_two_pow, bitRange, bitRange]

/-- A mask of ones over a whole field leaves the field as it is. -/
theorem bitRange_and_ones (v hi lo : Nat) : bitRange v hi lo &&& (2 ^ (hi + 1 - lo) - 1) = bitRange v hi lo := by
  rw [Nat.and_two_pow_sub_one_eq_mod, bitRange, Nat.mod_mod]

@[simp] theorem opcodeField_and_ones (w : CommandWord) : opcodeField w &&& 0xFF = opcodeField w :=
  bitRange_and_ones w.toNat 63 56

@[simp] theorem rsvField_and_ones (w : CommandWord) : rsvField w &&& 0x7F = rsvField w :=
  bitRange_and_ones w.toNat 55 49

/-- A mask of one bit is, to `simp`, a remainder by 2. -/
@[simp] theorem modeField_mod_two (w : CommandWord) : modeField w % 2 = modeField w := Nat.mod_mod _ 2

@[simp] theorem obsField_and_ones (w : CommandWord) : obsField w &&& 0xFFFF = obsField w :=
  bitRange_and_ones w.toNat 47 32

@[simp] theorem lenField_and_ones (w : CommandWord) : lenField w &&& 0xFFFFFFFF = lenField w :=
  bitRange_and_ones w.toNat 31 0

theorem opcodeField_lt (w : CommandWord) : opcodeField w < 256 := Nat.mod_lt _ (by decide)

/-- A command word is its five fields. -/
theorem commandWord_ext_iff {w v : CommandWord} :
    w = v ↔ opcodeField w = opcodeField v ∧ rsvField w = rsvField v ∧ modeField w = modeField v ∧
      obsField w = obsField v ∧ lenField w = lenField v := by
  constructor
  · rintro rfl
    simp
  · simp only [opcodeField, rsvField, modeField, obsField, lenField, bitRange]
    intro fields
    apply BitVec.eq_of_toNat_eq
    omega

/-! ## Patterns (R46) -/

/-- A pattern selects a word by each field on its own. -/
theorem selects_iff (p : OpcodePattern) (w : CommandWord) :
    p.selects w = true ↔
      opcodeField w &&& opcodeField p.mask = opcodeField p.matchBits ∧
      rsvField w &&& rsvField p.mask = rsvField p.matchBits ∧
      modeField w &&& modeField p.mask = modeField p.matchBits ∧
      obsField w &&& obsField p.mask = obsField p.matchBits ∧
      lenField w &&& lenField p.mask = lenField p.matchBits := by
  simp only [OpcodePattern.selects, beq_iff_eq, commandWord_ext_iff, opcodeField, rsvField, modeField, obsField,
    lenField, BitVec.toNat_and, bitRange_and]

/-- Format I leaves `mode` and `obs` free. -/
theorem selects_init_iff (w : CommandWord) :
    (⟨0x0100000000000000, 0xFFFE0000FFFFFFFF⟩ : OpcodePattern).selects w = true ↔
      opcodeField w = opInit ∧ rsvField w = 0 ∧ lenField w = 0 := by
  rw [selects_iff]
  change opcodeField w &&& 0xFF = opInit ∧ rsvField w &&& 0x7F = 0 ∧ modeField w &&& 0 = 0 ∧ obsField w &&& 0 = 0 ∧
    lenField w &&& 0xFFFFFFFF = 0 ↔ _
  simp

/-- Format U leaves no field free. -/
theorem selects_update_iff (w : CommandWord) :
    (⟨0x0200000000000000, 0xFFFFFFFFFFFFFFFF⟩ : OpcodePattern).selects w = true ↔
      opcodeField w = opUpdate ∧ rsvField w = 0 ∧ modeField w = 0 ∧ obsField w = 0 ∧ lenField w = 0 := by
  rw [selects_iff]
  change opcodeField w &&& 0xFF = opUpdate ∧ rsvField w &&& 0x7F = 0 ∧ modeField w &&& 1 = 0 ∧
    obsField w &&& 0xFFFF = 0 ∧ lenField w &&& 0xFFFFFFFF = 0 ↔ _
  simp

/-- Format L leaves `len` free. -/
theorem selects_final_iff (w : CommandWord) :
    (⟨0x0300000000000000, 0xFFFFFFFF00000000⟩ : OpcodePattern).selects w = true ↔
      opcodeField w = opFinal ∧ rsvField w = 0 ∧ modeField w = 0 ∧ obsField w = 0 := by
  rw [selects_iff]
  change opcodeField w &&& 0xFF = opFinal ∧ rsvField w &&& 0x7F = 0 ∧ modeField w &&& 1 = 0 ∧
    obsField w &&& 0xFFFF = 0 ∧ lenField w &&& 0 = 0 ↔ _
  simp

/-- Format H leaves `mode`, `obs` and `len` free. -/
theorem selects_hash_iff (w : CommandWord) :
    (⟨0x0400000000000000, 0xFFFE000000000000⟩ : OpcodePattern).selects w = true ↔
      opcodeField w = opHash ∧ rsvField w = 0 := by
  rw [selects_iff]
  change opcodeField w &&& 0xFF = opHash ∧ rsvField w &&& 0x7F = 0 ∧ modeField w &&& 0 = 0 ∧ obsField w &&& 0 = 0 ∧
    lenField w &&& 0 = 0 ↔ _
  simp

/-- Items 1 to 3 of R51, turned over: the opcode is one of the four and the fields its format does not use are zero. -/
theorem not_illegalWord_iff (w : CommandWord) :
    ¬ IllegalWord w ↔
      (opcodeField w = opInit ∧ rsvField w = 0 ∧ lenField w = 0) ∨
      (opcodeField w = opUpdate ∧ rsvField w = 0 ∧ modeField w = 0 ∧ obsField w = 0 ∧ lenField w = 0) ∨
      (opcodeField w = opFinal ∧ rsvField w = 0 ∧ modeField w = 0 ∧ obsField w = 0) ∨
      (opcodeField w = opHash ∧ rsvField w = 0) := by
  have := opcodeField_lt w
  simp only [IllegalWord, opInit, opUpdate, opFinal, opHash]
  omega

theorem illegalWord_iff_no_pattern_selects (w : CommandWord) :
    IllegalWord w ↔ ∀ p ∈ opcodePatterns, p.selects w = false := by
  have legal_iff : ¬ IllegalWord w ↔ ∃ p ∈ opcodePatterns, p.selects w = true := by
    rw [not_illegalWord_iff, ← selects_init_iff, ← selects_update_iff, ← selects_final_iff, ← selects_hash_iff]
    simp only [opcodePatterns, List.exists_mem_cons_iff, List.not_mem_nil, false_and, exists_false, or_false]
  rw [← not_iff_not, legal_iff]
  simp

/-! ## Rejections (R45, R51) -/

theorem decodeInit_rejects_iff (t : Transaction) :
    (∃ e, decodeInit t = .error e) ↔ rsvField t.word ≠ 0 ∨ lenField t.word ≠ 0 ∨ t.payload ≠ [] := by
  unfold decodeInit
  split_ifs <;> simp_all

theorem decodeUpdate_rejects_iff (t : Transaction) :
    (∃ e, decodeUpdate t = .error e) ↔
      rsvField t.word ≠ 0 ∨ modeField t.word ≠ 0 ∨ obsField t.word ≠ 0 ∨ lenField t.word ≠ 0 := by
  unfold decodeUpdate
  split_ifs <;> simp_all

theorem decodeFinal_rejects_iff (t : Transaction) :
    (∃ e, decodeFinal t = .error e) ↔
      rsvField t.word ≠ 0 ∨ (modeField t.word ≠ 0 ∨ obsField t.word ≠ 0) ∨ t.payload ≠ [] := by
  unfold decodeFinal
  split_ifs <;> simp_all

theorem decodeHash_rejects_iff (t : Transaction) : (∃ e, decodeHash t = .error e) ↔ rsvField t.word ≠ 0 := by
  unfold decodeHash
  split_ifs <;> simp_all

/-- The decoder rejects what R51 calls illegal: format by format, by the opcode. -/
theorem decode_rejects_iff (t : Transaction) : (∃ e, decode t = .error e) ↔ IllegalTransaction t := by
  unfold decode
  split_ifs with init update final hash
  · rw [decodeInit_rejects_iff]
    simp [IllegalTransaction, IllegalWord, init, opInit, or_assoc]
  · rw [decodeUpdate_rejects_iff]
    simp [IllegalTransaction, IllegalWord, update, opUpdate]
  · rw [decodeFinal_rejects_iff]
    simp [IllegalTransaction, IllegalWord, final, opFinal, or_assoc]
  · rw [decodeHash_rejects_iff]
    simp [IllegalTransaction, IllegalWord, hash, opHash]
  · have unknown : IllegalWord t.word := by
      by_contra legal
      have := (not_illegalWord_iff t.word).mp legal
      tauto
    exact iff_of_true ⟨_, rfl⟩ (.inl unknown)

/-- Settles O4: the decoder's rejections format by format, the answer from `step_illegal`, and the patterns field by
field. -/
theorem illegalExactlyByItems : Obligations.IllegalExactlyByItems := by
  refine ⟨decode_rejects_iff, fun s t rest presented illegal => ?_, illegalWord_iff_no_pattern_selects⟩
  obtain ⟨why, rejected⟩ := (decode_rejects_iff t).mpr illegal
  exact ⟨_, step_illegal presented rejected, rfl, rfl, rfl⟩

end Sys2Proof.Machine
end

section
/-! PROOFS. The five steps and a round on the all-zero state, and `PERMUTE` as 24 rounds (40_permutation.md R61, R62). -/

namespace Sys2Proof.Machine

@[simp] theorem rotl64_of_zero (n : Nat) : rotl64 0#64 n = 0#64 := by
  simp [rotl64]

@[simp] theorem Buffer.laneAt_zero (x y : Nat) : Buffer.zero.laneAt x y = 0 := Buffer.lane_zero _

theorem columnParities_zero_getD {x : Nat} (h : x < 5) : (columnParities .zero).getD x 0 = 0 := by
  rw [columnParities_getD _ h]
  simp

/-- Every column of the all-zero state has parity zero, so no lane is changed. -/
@[simp] theorem theta_zero : theta .zero = .zero := by
  apply Buffer.ext_lane
  intro i hi
  have column (x : Nat) : (columnParities .zero).getD (x % 5) 0 = 0 :=
    columnParities_zero_getD (Nat.mod_lt x (by decide))
  rw [theta_lane _ hi, thetaEffect_getD _ (Nat.mod_lt i (by decide)), column, column]
  simp

@[simp] theorem rho_zero : rho .zero = .zero := by
  apply Buffer.ext_lane
  intro i hi
  rw [rho_lane _ hi, Buffer.lane_zero]
  exact rotl64_of_zero _

@[simp] theorem pi_zero : pi .zero = .zero := by
  apply Buffer.ext_lane
  intro j hj
  rw [pi_lane _ hj, Buffer.lane_zero, Buffer.lane_zero]

/-- The right operand of the conjunction is a zero lane, so no lane is changed. -/
@[simp] theorem chi_zero : chi .zero = .zero := by
  apply Buffer.ext_lane
  intro i hi
  rw [chi_lane _ hi]
  simp

/-- On the all-zero state a round is its `IOTA`: the four steps before it change nothing. -/
@[simp] theorem round_of_zero (r : Nat) : round r .zero = iota r .zero := by
  rw [round, theta_zero, rho_zero, pi_zero, chi_zero]

theorem round_of_zero_lane_zero (r : Nat) : (round r .zero).lane 0 = roundConstant r := by
  rw [round_of_zero, iota_lane_zero, Buffer.lane_zero]
  exact BitVec.zero_xor

theorem round_of_zero_lane_ne (r : Nat) {i : Nat} (h : i ≠ 0) : (round r .zero).lane i = 0 := by
  rw [round_of_zero, iota_lane_ne r _ h, Buffer.lane_zero]

/-- `PERMUTE` in R61's and R62's words: the rounds in increasing order, each its five steps in order. -/
theorem permute_eq_foldl_steps (b : Buffer) :
    permute b = (List.range 24).foldl (fun b r => iota r (chi (pi (rho (theta b))))) b := rfl

/-- The known answer that R61 prints, by running the 24 rounds. -/
theorem permute_zero_lanes :
    (permute .zero).lane 0 = 0xF1258F7940E1DDE7 ∧ (permute .zero).lane 1 = 0x84D5CCF933C0478A := by
  decide +kernel

/-- Settles O42: `PERMUTE` unfolds to its rounds, its known answer is run, and the values on the all-zero state follow
from what each step does to each lane. -/
theorem permuteRunsRounds : Obligations.PermuteRunsRounds := by
  obtain ⟨lane0, lane1⟩ := permute_zero_lanes
  exact ⟨permute_eq_foldl_steps, lane0, lane1, theta_zero, rho_zero, pi_zero, chi_zero, round_of_zero_lane_zero 0,
    fun _ _ hne => round_of_zero_lane_ne 0 hne⟩

end Sys2Proof.Machine
end

section
/-! PROOFS. The two checks of `ABSORB` (41_absorb.md R74). -/

namespace Sys2Proof.Machine

/-- The first check, whatever the rate: when both fail, this one is reported. -/
theorem absorb_of_sum_ne (c : Context) (data : List Byte) {rate cap : Nat} (hsum : rate + cap ≠ 1600) :
    absorb c data rate cap = .raised .rateCapacitySum := by
  rw [absorb, if_pos hsum]

/-- The second check, reached with the sum right. -/
theorem absorb_of_bad_rate (c : Context) (data : List Byte) {rate cap : Nat} (hsum : rate + cap = 1600)
    (hrate : rate % 8 ≠ 0 ∨ rate < 8) : absorb c data rate cap = .raised .rateNotPositiveMultipleOf8 := by
  rw [absorb, if_neg (not_not_intro hsum), if_pos hrate]

/-- Neither check fails with the parameters of a live context, and its offset is inside the rate region. -/
theorem Context.Live.absorb_completes {c : Context} (h : c.Live) (data : List Byte) :
    ∃ c', absorb c data c.rate.toNat c.capacity.toNat = .done c' := by
  obtain ⟨hsum, hmod, hmin, -, hoff⟩ := h.numbers
  obtain ⟨b, -, ha⟩ := Machine.absorb_completes c data hsum hmod (by omega) hoff
  exact ⟨_, ha⟩

/-- The zeroed parameters of an idle context sum to 0. -/
theorem Context.Idle.absorb_raises {c : Context} (h : c.Idle) (data : List Byte) :
    absorb c data c.rate.toNat c.capacity.toNat = .raised .rateCapacitySum := by
  apply absorb_of_sum_ne
  rw [h.rate, h.capacity]
  decide

/-- Settles O43: each check by the branch it guards, completion by `absorb_completes`, and the two remarks on R21's
contexts by their parameters. -/
theorem absorbValidates : Obligations.AbsorbValidates := by
  refine ⟨fun c data rate cap => ⟨absorb_of_sum_ne c data, fun ⟨hsum, hrate⟩ => absorb_of_bad_rate c data hsum hrate,
    fun ⟨hsum, hmod, hpos, hoff⟩ => ?_⟩, fun _ data h => h.absorb_completes data, fun _ data h => h.absorb_raises data⟩
  obtain ⟨b, -, ha⟩ := absorb_completes c data hsum hmod hpos hoff
  exact ⟨b, _, ha⟩

end Sys2Proof.Machine
end

section
/-! PROOFS. The precondition of `SQUEEZE` (42_squeeze.md R81). -/

namespace Sys2Proof.Machine

/-- Of the two things `SQUEEZE` can do, completing needs R81's precondition. -/
theorem squeeze_refused (c : Context) (outLen : Nat) {rate : Nat} (suffix : Byte)
    (h : ¬ (rate % 8 = 0 ∧ 8 ≤ rate ∧ rate ≤ 1600 ∧ c.offset.toNat < rate / 8)) :
    squeeze c outLen rate suffix = .refused .squeezePrecondition := by
  obtain ⟨hready, -⟩ | ⟨-, hrefused⟩ := squeeze_cases c outLen rate suffix
  · exact absurd ((squeezeReady_iff _ _).1 hready) h
  · exact hrefused

/-- The rate of a live context lies well inside R81's bounds. -/
theorem Context.Live.meets_squeeze_precondition {c : Context} (h : c.Live) :
    c.rate.toNat % 8 = 0 ∧ 8 ≤ c.rate.toNat ∧ c.rate.toNat ≤ 1600 ∧ c.offset.toNat < c.rate.toNat / 8 := by
  obtain ⟨-, hmod, hmin, hmax, hoff⟩ := h.numbers
  exact ⟨hmod, by omega, by omega, hoff⟩

/-- Settles O44: the refusal by the cases of `SQUEEZE`, and the precondition by the parameters of a live context. -/
theorem squeezePrecondition : Obligations.SqueezePrecondition :=
  ⟨fun c outLen _ suffix h => squeeze_refused c outLen suffix h, fun _ h => h.meets_squeeze_precondition⟩

end Sys2Proof.Machine
end

section
/-! PROOFS. The words of the engine rules tied to the model's checks: phases, legal pairs, the suffix, and the two
kinds of idle context a command leaves (43_streaming_engine.md R90, R91). -/

namespace Sys2Proof.Machine

theorem exec_update (data : List Byte) (s : State) : exec (.update data) s = execUpdate data s := rfl
theorem exec_final (outLen : Nat) (s : State) : exec (.final outLen) s = execFinal outLen s := rfl

theorem Phase.isLive_eq_false_iff (p : Phase) : p.isLive = false ↔ p = .uninitialized ∨ p = .finalized := by
  cases p <;> simp [Phase.isLive]

theorem Phase.isLive_eq_true_iff (p : Phase) : p.isLive = true ↔ p = .initialized ∨ p = .absorbing := by
  cases p <;> simp [Phase.isLive]

theorem legal_iff_legalPair (m : Mode) (n : Nat) : legal m n = true ↔ LegalPair m n := legal_iff m n

theorem legal_eq_false_iff (m : Mode) (n : Nat) : legal m n = false ↔ ¬ LegalPair m n := by
  rw [← legal_iff_legalPair, Bool.not_eq_true]

theorem suffixOf_eq_ite (m : Mode) : suffixOf m = if m = .sha3 then 0x06 else 0x1F := by
  cases m <;> rfl

/-- The rate and capacity of a legal pair pass the two checks of `ABSORB` (41_absorb.md R74) and lie within the rate
bounds of `SQUEEZE` (42_squeeze.md R81). -/
theorem LegalPair.rate_valid {m : Mode} {n : Nat} (h : LegalPair m n) :
    1600 - 2 * n + 2 * n = 1600 ∧ (1600 - 2 * n) % 8 = 0 ∧ 8 ≤ 1600 - 2 * n ∧ 1600 - 2 * n ≤ 1600 := by
  rcases h with ⟨-, h⟩ | ⟨-, h⟩ <;> omega

/-- Every `ParameterError` leaves the idle context (60_exceptions.md R113). -/
theorem State.raiseParameterError_idle (s : State) (x : ParameterCause) : (s.raiseParameterError x).ctx.Idle :=
  Context.cleared_idle (.inl rfl)

/-- What `FINAL` and `HASH` leave on `OK` is an idle context (R96, R99). -/
theorem State.complete_finalized_idle (s : State) (out : List Byte) :
    (s.complete (.cleared .finalized) out).ctx.Idle :=
  Context.cleared_idle (.inr rfl)

/-- A command that goes on with a micro-operation's result and ends: the micro-operation was done and the rest ended,
or it raised a `ParameterError`. -/
theorem State.continueWith_eq_next {α : Type} {s t : State} {m : MicroResult α} {k : α → Outcome}
    (h : s.continueWith m k = .next t) :
    (∃ a, m = .done a ∧ k a = .next t) ∨ ∃ cause, t = s.raiseParameterError cause := by
  cases m with
  | done a => exact .inl ⟨a, rfl, h⟩
  | raised cause => exact .inr ⟨cause, (Host.Outcome.next.inj h).symm⟩
  | fault reason => cases h
  | refused reason => cases h

end Sys2Proof.Machine
end

section
/-! PROOFS. The lifecycle table over all commands (43_streaming_engine.md R90). -/

namespace Sys2Proof.Machine

/-! ## The rows of the table, by whether a computation is live -/

theorem lifecycle_update (data : List Byte) (p : Phase) :
    lifecycle (.update data) p = if p.isLive then some .absorbing else none := by
  cases p <;> rfl

theorem lifecycle_final (outLen : Nat) (p : Phase) :
    lifecycle (.final outLen) p = if p.isLive then some .finalized else none := by
  cases p <;> rfl

theorem lifecycle_hash (outLen : Nat) (input : List Byte) (n : Nat) (m : Mode) (p : Phase) :
    lifecycle (.hash outLen input n m) p = if p.isLive then none else some .finalized := by
  cases p <;> rfl

/-! ## Commands the table refuses -/

/-- A command the table refuses is a `UsageError`, whatever its operands. -/
theorem exec_of_lifecycle_none {i : Instr} {s : State} (h : lifecycle i s.ctx.phase = none) :
    exec i s = .next s.raiseUsageError := by
  cases i with
  | init n m => cases h
  | update data => exact execUpdate_idle data (by simpa [lifecycle_update] using h)
  | final outLen => exact execFinal_idle outLen (by simpa [lifecycle_final] using h)
  | hash outLen input n m => exact execHash_live outLen input n m (by simpa [lifecycle_hash] using h)

/-! ## Commands the table accepts -/

/-- The two ends of an accepted command that the table knows, `p` being the phase of its row: `OK` with phase `p`, or
`ParameterError`. -/
def State.EndsAccepted (s : State) (p : Phase) (t : State) : Prop :=
  (∃ c out, c.phase = p ∧ t = s.complete c out) ∨ ∃ cause, t = s.raiseParameterError cause

/-- What R90 says of such an end: the one response given, and the phase left. -/
theorem State.EndsAccepted.response {s t : State} {p : Phase} (h : s.EndsAccepted p t) :
    ∃ r, t.responses = s.responses ++ [r] ∧
      ((r.status = .ok ∧ t.ctx.phase = p) ∨ (r.status = .errParam ∧ t.ctx.phase = .uninitialized)) := by
  obtain ⟨c, out, hp, rfl⟩ | ⟨cause, rfl⟩ := h
  · exact ⟨⟨.ok, out⟩, rfl, .inl ⟨rfl, hp⟩⟩
  · exact ⟨⟨.errParam, []⟩, rfl, .inr ⟨rfl, rfl⟩⟩

theorem execInit_endsAccepted {n : Nat} {m : Mode} {s t : State} (h : execInit n m s = .next t) :
    s.EndsAccepted .initialized t := by
  obtain ⟨-, he⟩ | ⟨-, he⟩ := execInit_cases n m s <;> cases he.symm.trans h
  · exact .inl ⟨_, _, rfl, rfl⟩
  · exact .inr ⟨_, rfl⟩

theorem execUpdate_endsAccepted {data : List Byte} {s t : State} (hlive : s.ctx.phase.isLive = true)
    (h : execUpdate data s = .next t) : s.EndsAccepted .absorbing t := by
  rw [execUpdate_live data hlive] at h
  obtain ⟨c, -, hk⟩ | hraised := State.continueWith_eq_next h
  · cases hk
    exact .inl ⟨_, _, rfl, rfl⟩
  · exact .inr hraised

/-- A `FINAL` in a live phase that ends has cleared the context (R96): with its output, or by `ParameterError`. -/
theorem execFinal_live_ends {outLen : Nat} {s t : State} (hlive : s.ctx.phase.isLive = true)
    (h : execFinal outLen s = .next t) :
    (∃ out, t = s.complete (.cleared .finalized) out) ∨ ∃ cause, t = s.raiseParameterError cause := by
  rw [execFinal_live outLen hlive] at h
  split at h
  · next mismatch =>
    cases h
    exact .inr ⟨_, rfl⟩
  · next passed =>
    obtain ⟨r, -, hk⟩ | hraised := State.continueWith_eq_next h
    · cases hk
      exact .inl ⟨r.2, rfl⟩
    · exact .inr hraised

theorem execFinal_endsAccepted {outLen : Nat} {s t : State} (hlive : s.ctx.phase.isLive = true)
    (h : execFinal outLen s = .next t) : s.EndsAccepted .finalized t :=
  (execFinal_live_ends hlive h).imp_left fun ⟨out, ht⟩ => ⟨.cleared .finalized, out, rfl, ht⟩

theorem execHash_endsAccepted {outLen : Nat} {input : List Byte} {n : Nat} {m : Mode} {s t : State}
    (hidle : s.ctx.phase.isLive = false) (h : execHash outLen input n m s = .next t) :
    s.EndsAccepted .finalized t := by
  by_cases hbad : legal m n = false ∨ outLenMismatches m outLen n = true
  · obtain ⟨cause, he⟩ := execHash_invalid outLen input n m hidle hbad
    cases he.symm.trans h
    exact .inr ⟨cause, rfl⟩
  · obtain ⟨hl, hm⟩ : legal m n = true ∧ outLenMismatches m outLen n = false := by simpa using hbad
    obtain ⟨-, out, -, -, -, he⟩ := execHash_completes outLen input hidle hl hm
    cases he.symm.trans h
    exact .inl ⟨.cleared .finalized, out, rfl, rfl⟩

/-- A command the table accepts ends in one of the table's two ways, if it ends. -/
theorem exec_of_lifecycle_some {i : Instr} {s t : State} {p : Phase} (hp : lifecycle i s.ctx.phase = some p)
    (h : exec i s = .next t) : s.EndsAccepted p t := by
  cases i with
  | init n m =>
    cases hp
    exact execInit_endsAccepted h
  | update data =>
    obtain ⟨hlive, rfl⟩ : s.ctx.phase.isLive = true ∧ .absorbing = p := by simpa [lifecycle_update] using hp
    exact execUpdate_endsAccepted hlive h
  | final outLen =>
    obtain ⟨hlive, rfl⟩ : s.ctx.phase.isLive = true ∧ .finalized = p := by simpa [lifecycle_final] using hp
    exact execFinal_endsAccepted hlive h
  | hash outLen input n m =>
    obtain ⟨hidle, rfl⟩ : s.ctx.phase.isLive = false ∧ .finalized = p := by simpa [lifecycle_hash] using hp
    exact execHash_endsAccepted hidle h

/-- Settles O24: the refused half command by command from its phase check, the accepted half from the two ways an
accepted command can end. -/
theorem lifecycleTable : Obligations.LifecycleTable := fun _ s =>
  ⟨fun refused => ⟨s.raiseUsageError, exec_of_lifecycle_none refused, rfl, rfl, rfl⟩,
    fun _ _ accepted ended => (exec_of_lifecycle_some accepted ended).response⟩

end Sys2Proof.Machine
end

section
/-! PROOFS. `INIT` (43_streaming_engine.md R91). -/

namespace Sys2Proof.Machine

theorem exec_init_of_legalPair {n : Nat} {m : Mode} (s : State) (h : LegalPair m n) :
    exec (.init n m) s = .next (s.complete { s.ctx.start n m with phase := .initialized } []) := by
  obtain ⟨-, he⟩ | ⟨hillegal, -⟩ := execInit_cases n m s
  · exact he
  · exact absurd h ((legal_eq_false_iff m n).1 hillegal)

theorem exec_init_of_not_legalPair {n : Nat} {m : Mode} (s : State) (h : ¬ LegalPair m n) :
    exec (.init n m) s = .next (s.raiseParameterError .unsupportedOutputBitSize) := by
  obtain ⟨hlegal, -⟩ | ⟨-, he⟩ := execInit_cases n m s
  · exact absurd ((legal_iff_legalPair m n).1 hlegal) h
  · exact he

/-- Settles O10: the started context register by register, none of its numbers wrapping, and the idle context of a
`ParameterError`. -/
theorem initStartsOrResets : Obligations.InitStartsOrResets := by
  refine fun n m s => ⟨fun hlegal => ?_, fun hillegal => ?_⟩
  · obtain ⟨hrate, hcapacity, hobs⟩ := s.ctx.start_numbers ((legal_iff_legalPair m n).2 hlegal)
    exact ⟨_, exec_init_of_legalPair s hlegal, fun k _ => Buffer.byte_zero k, rfl, rfl, hobs, hcapacity, hrate,
      suffixOf_eq_ite m, rfl, rfl, rfl⟩
  · exact ⟨_, exec_init_of_not_legalPair s hillegal, s.raiseParameterError_idle _, rfl, rfl, rfl⟩

end Sys2Proof.Machine
end

section
/-! PROOFS. `UPDATE` (43_streaming_engine.md R93). -/

namespace Sys2Proof.Machine

/-- `ABSORB` writes `S` and `OFFSET` only (41_absorb.md R73). -/
theorem absorb_frame {c c' : Context} {data : List Byte} {rate cap : Nat} (h : absorb c data rate cap = .done c') :
    c'.rate = c.rate ∧ c'.capacity = c.capacity ∧ c'.suffix = c.suffix ∧ c'.mode = c.mode ∧ c'.obs = c.obs ∧
      c'.phase = c.phase := by
  obtain ⟨-, ha⟩ | ⟨-, -, ha⟩ | ⟨-, -, -, ⟨b, fill, -, ha⟩ | ⟨k, -, ha⟩⟩ := absorb_cases c data rate cap
    <;> cases ha.symm.trans h
  exact ⟨rfl, rfl, rfl, rfl, rfl, rfl⟩

/-- Settles O12: `ABSORB` completes on a live context and has the frame of R73; an idle phase is the usage error. -/
theorem updateAbsorbs : Obligations.UpdateAbsorbs := by
  refine fun data s => ⟨fun hlive => ?_, fun hidle => ?_⟩
  · obtain ⟨c, hc⟩ := hlive.absorb_completes data
    have hexec : exec (.update data) s = .next (s.complete { c with phase := .absorbing } []) := by
      rw [exec_update, execUpdate_live data hlive.is_live, hc, State.continueWith_done]
    obtain ⟨hrate, hcapacity, hsuffix, hmode, hobs, -⟩ := absorb_frame hc
    exact ⟨c, _, hc, hexec, rfl, rfl, rfl, hrate, hcapacity, hsuffix, hmode, hobs, rfl, rfl⟩
  · exact ⟨_, execUpdate_idle data ((Phase.isLive_eq_false_iff _).2 hidle), rfl, rfl, rfl⟩

end Sys2Proof.Machine
end

section
/-! PROOFS. `FINAL` (43_streaming_engine.md R96, R98). -/

namespace Sys2Proof.Machine

theorem Context.Live.squeeze_completes {c : Context} (h : c.Live) (outLen : Nat) :
    ∃ b out, squeeze c outLen c.rate.toNat c.suffix = .done (b, out) ∧ out.length = outLen := by
  obtain ⟨hmod, hpos, hmax, hoff⟩ := h.meets_squeeze_precondition
  obtain ⟨⟨b, out⟩, hr, -, hlen⟩ := Machine.squeeze_completes c outLen c.suffix hmod hpos hmax hoff
  exact ⟨b, out, hr, hlen⟩

theorem exec_final_of_squeeze {outLen : Nat} {s : State} {b : Buffer} {out : List Byte}
    (hlive : s.ctx.phase.isLive = true) (hlen : s.ctx.mode = .sha3 → outLen = s.ctx.obs.toNat / 8)
    (hsqueeze : squeeze s.ctx outLen s.ctx.rate.toNat s.ctx.suffix = .done (b, out)) :
    exec (.final outLen) s = .next (s.complete (.cleared .finalized) out) := by
  rw [exec_final, execFinal_live outLen hlive, (outLenMismatches_eq_false _ _ _).2 hlen, hsqueeze]
  rfl

theorem exec_final_of_mismatch {outLen : Nat} {s : State} (hlive : s.ctx.phase.isLive = true)
    (hbad : s.ctx.mode = .sha3 ∧ outLen ≠ s.ctx.obs.toNat / 8) :
    exec (.final outLen) s = .next (s.raiseParameterError .outLenMismatch) := by
  rw [exec_final, execFinal_live outLen hlive, if_pos ((outLenMismatches_eq_true _ _ _).2 hbad)]

/-- Settles O18: on a live context `SQUEEZE` completes and the length check decides between its two ends; an idle phase
is the usage error. -/
theorem finalSqueezesAndClears : Obligations.FinalSqueezesAndClears := by
  refine fun outLen s => ⟨fun hlive => ⟨fun hlen => ?_, fun hbad => ?_⟩, fun hidle => ?_⟩
  · obtain ⟨b, out, hsqueeze, hout⟩ := hlive.squeeze_completes outLen
    exact ⟨b, out, _, hsqueeze, hout, exec_final_of_squeeze hlive.is_live hlen hsqueeze,
      s.complete_finalized_idle out, rfl, rfl, rfl⟩
  · exact ⟨_, exec_final_of_mismatch hlive.is_live hbad, s.raiseParameterError_idle _, rfl, rfl, rfl⟩
  · exact ⟨_, execFinal_idle outLen ((Phase.isLive_eq_false_iff _).2 hidle), rfl, rfl, rfl⟩

/-- `FINAL` leaves an idle context, whichever status it ends with: an idle one is kept, a live one is cleared. -/
theorem exec_final_leaves_idle {outLen : Nat} {s t : State} (hinv : s.Inv) (h : exec (.final outLen) s = .next t) :
    t.ctx.Idle := by
  obtain hidle | hlive := hinv
  · cases (execFinal_idle outLen hidle.not_live).symm.trans h
    exact hidle
  · obtain ⟨out, rfl⟩ | ⟨cause, rfl⟩ := execFinal_live_ends hlive.is_live h
    · exact s.complete_finalized_idle out
    · exact s.raiseParameterError_idle cause

/-- Settles O19: the context `FINAL` leaves is idle, and an idle context has every byte and parameter zero. -/
theorem finalLeavesNoResidue : Obligations.FinalLeavesNoResidue := by
  intro outLen s t hinv h
  have idle := exec_final_leaves_idle hinv h
  exact ⟨idle.bytes_zero, idle.rate, idle.capacity, idle.suffix, idle.offset, idle.mode, idle.obs⟩

end Sys2Proof.Machine
end

section
/-! PROOFS. `HASH` (43_streaming_engine.md R99). -/

namespace Sys2Proof.Machine

/-- The output of an accepted `HASH` is that of `ABSORB` and `SQUEEZE`, run from the started context. -/
theorem exec_hash_of_checks {outLen : Nat} {n : Nat} {m : Mode} {s : State} (input : List Byte)
    (hidle : s.ctx.phase.isLive = false) (hlegal : LegalPair m n) (hlen : m = .sha3 → outLen = n / 8) :
    ∃ c' b out, absorb (s.ctx.start n m) input (1600 - 2 * n) (2 * n) = .done c' ∧
      squeeze c' outLen (1600 - 2 * n) (suffixOf m) = .done (b, out) ∧ out.length = outLen ∧
      exec (.hash outLen input n m) s = .next (s.complete (.cleared .finalized) out) := by
  obtain ⟨hsum, hmod, hpos, hmax⟩ := hlegal.rate_valid
  obtain ⟨b, out, hbytes, hout, houtLen, hexec⟩ := execHash_completes outLen input hidle
    ((legal_iff_legalPair m n).2 hlegal) ((outLenMismatches_eq_false m outLen n).2 hlen)
  have hstart : (s.ctx.start n m).offset.toNat = 0 := rfl
  obtain ⟨b', hbytes', habsorb⟩ := absorb_completes (s.ctx.start n m) input hsum hmod hpos (by omega)
  rw [hstart, Nat.zero_add] at hbytes' habsorb
  -- The two absorptions are the same run of the loop, so they leave the same buffer.
  cases hbytes.symm.trans hbytes'
  have hfill : input.length % ((1600 - 2 * n) / 8) < (1600 - 2 * n) / 8 := Nat.mod_lt _ (by omega)
  have hoffset := offset_toNat hfill (by omega)
  obtain ⟨⟨left, out'⟩, hsqueeze, hr, -⟩ := squeeze_completes
    { s.ctx.start n m with buffer := b, offset := BitVec.ofNat 8 (input.length % ((1600 - 2 * n) / 8)) }
    outLen (suffixOf m) hmod hpos hmax (by simp only [hoffset]; exact hfill)
  simp only [hoffset] at hr
  obtain rfl : out' = out := by rw [hout, ← hr]
  exact ⟨_, left, out', habsorb, hsqueeze, houtLen, hexec⟩

/-- Settles O22: the two operand checks decide between the two ends in an idle phase; a live phase is the usage
error. -/
theorem hashRunsWholeComputation : Obligations.HashRunsWholeComputation := by
  refine fun outLen input n m s => ⟨fun hidle => ?_, fun hlive => ?_⟩
  · have hnotLive := (Phase.isLive_eq_false_iff _).2 hidle
    refine ⟨fun hlegal hlen => ?_, fun hbad => ?_⟩
    · obtain ⟨c', b, out, habsorb, hsqueeze, hout, hexec⟩ := exec_hash_of_checks input hnotLive hlegal hlen
      exact ⟨s.ctx.start n m, c', b, out, _, rfl, rfl, habsorb, suffixOf_eq_ite m ▸ hsqueeze, hout, hexec,
        s.complete_finalized_idle out, rfl, rfl, rfl⟩
    · rw [← legal_eq_false_iff, ← outLenMismatches_eq_true] at hbad
      obtain ⟨cause, hexec⟩ := execHash_invalid outLen input n m hnotLive hbad
      exact ⟨_, hexec, s.raiseParameterError_idle cause, rfl, rfl, rfl⟩
  · exact ⟨_, execHash_live outLen input n m ((Phase.isLive_eq_true_iff _).2 hlive), rfl, rfl, rfl⟩

end Sys2Proof.Machine
end

section
/-! PROOFS. The state effect of `ERR_PARAM`, over all commands (60_exceptions.md R113). -/

namespace Sys2Proof.Machine

/-- Every end of a command, in any state: the usage error of a refused one, or one of the two ends of an accepted
one. -/
theorem exec_ends {i : Instr} {s t : State} (h : exec i s = .next t) :
    t = s.raiseUsageError ∨ ∃ p, s.EndsAccepted p t := by
  cases hp : lifecycle i s.ctx.phase with
  | none => exact .inl (Host.Outcome.next.inj (h.symm.trans (exec_of_lifecycle_none hp)))
  | some p => exact .inr ⟨p, exec_of_lifecycle_some hp h⟩

/-- Of the ends of a command only a raised `ParameterError` answers `ERR_PARAM`, and with no output. -/
theorem exec_errParam_raised {i : Instr} {s t : State} {r : Response} (h : exec i s = .next t)
    (hr : t.responses = s.responses ++ [r]) (hstatus : r.status = .errParam) :
    (∃ cause, t = s.raiseParameterError cause) ∧ r.output = [] := by
  obtain rfl | ⟨p, ⟨c, out, -, rfl⟩ | ⟨cause, rfl⟩⟩ := exec_ends h
  · obtain rfl : ⟨.errUsage, []⟩ = r := by simpa using hr
    cases hstatus
  · obtain rfl : ⟨.ok, out⟩ = r := by simpa using hr
    cases hstatus
  · obtain rfl : ⟨.errParam, []⟩ = r := by simpa using hr
    exact ⟨⟨cause, rfl⟩, rfl⟩

/-- Settles O25: a command answered `ERR_PARAM` raised a `ParameterError`, whose context is idle and
`Uninitialized`. -/
theorem parameterErrorResetsContext : Obligations.ParameterErrorResetsContext := by
  intro i s t r h hr hstatus
  obtain ⟨⟨cause, rfl⟩, hout⟩ := exec_errParam_raised h hr hstatus
  have idle := s.raiseParameterError_idle cause
  exact ⟨idle.bytes_zero, idle.rate, idle.capacity, idle.suffix, idle.mode, idle.obs, idle.offset, rfl, hout⟩

end Sys2Proof.Machine
end

section
/-! PROOFS. One response per transaction, with a complete output or none (60_exceptions.md R107, R111). -/

namespace Sys2Proof.Machine

/-- `t` is `s` after a command that gave one response, with exactly `n` output bytes on `OK` and none otherwise. -/
def State.RespondsWith (s : State) (n : Nat) (t : State) : Prop :=
  ∃ c r, t = s.answer c r ∧ (r.status ≠ .ok → r.output = []) ∧ (r.status = .ok → r.output.length = n)

theorem State.complete_respondsWith (s : State) (c : Context) (out : List Byte) :
    s.RespondsWith out.length (s.complete c out) :=
  ⟨c, ⟨.ok, out⟩, rfl, fun h => absurd rfl h, fun _ => rfl⟩

theorem State.raiseParameterError_respondsWith (s : State) (cause : ParameterCause) (n : Nat) :
    s.RespondsWith n (s.raiseParameterError cause) :=
  ⟨_, ⟨.errParam, []⟩, rfl, fun _ => rfl, nofun⟩

theorem State.raiseUsageError_respondsWith (s : State) (n : Nat) : s.RespondsWith n s.raiseUsageError :=
  ⟨_, ⟨.errUsage, []⟩, rfl, fun _ => rfl, nofun⟩

theorem execInit_responds (n : Nat) (m : Mode) (s : State) : ∃ t, execInit n m s = .next t ∧ s.RespondsWith 0 t := by
  obtain ⟨-, he⟩ | ⟨-, he⟩ := execInit_cases n m s
  · exact ⟨_, he, s.complete_respondsWith _ []⟩
  · exact ⟨_, he, s.raiseParameterError_respondsWith _ _⟩

theorem execUpdate_responds (data : List Byte) {s : State} (hinv : s.Inv) :
    ∃ t, execUpdate data s = .next t ∧ s.RespondsWith 0 t := by
  obtain hidle | hlive := hinv
  · exact ⟨_, execUpdate_idle data hidle.not_live, s.raiseUsageError_respondsWith _⟩
  · obtain ⟨b, -, he⟩ := execUpdate_completes data hlive
    exact ⟨_, he, s.complete_respondsWith _ []⟩

theorem execFinal_responds (outLen : Nat) {s : State} (hinv : s.Inv) :
    ∃ t, execFinal outLen s = .next t ∧ s.RespondsWith outLen t := by
  obtain hidle | hlive := hinv
  · exact ⟨_, execFinal_idle outLen hidle.not_live, s.raiseUsageError_respondsWith _⟩
  · cases hlen : outLenMismatches s.ctx.mode outLen s.ctx.obs.toNat with
    | false =>
      obtain ⟨out, -, rfl, he⟩ := execFinal_completes outLen hlive hlen
      exact ⟨_, he, s.complete_respondsWith _ out⟩
    | true =>
      have he := exec_final_of_mismatch hlive.is_live ((outLenMismatches_eq_true _ _ _).1 hlen)
      exact ⟨_, he, s.raiseParameterError_respondsWith _ _⟩

/-- `HASH` needs no invariant: it starts its own context. -/
theorem execHash_responds (outLen : Nat) (input : List Byte) (n : Nat) (m : Mode) (s : State) :
    ∃ t, execHash outLen input n m s = .next t ∧ s.RespondsWith outLen t := by
  cases hphase : s.ctx.phase.isLive with
  | true => exact ⟨_, execHash_live outLen input n m hphase, s.raiseUsageError_respondsWith _⟩
  | false =>
    by_cases hbad : legal m n = false ∨ outLenMismatches m outLen n = true
    · obtain ⟨cause, he⟩ := execHash_invalid outLen input n m hphase hbad
      exact ⟨_, he, s.raiseParameterError_respondsWith cause _⟩
    · obtain ⟨hl, hm⟩ : legal m n = true ∧ outLenMismatches m outLen n = false := by simpa using hbad
      obtain ⟨-, out, -, -, rfl, he⟩ := execHash_completes outLen input hphase hl hm
      exact ⟨_, he, s.complete_respondsWith _ out⟩

/-- Under the invariant every command ends with one response, its output complete or empty. -/
theorem exec_responds (i : Instr) {s : State} (hinv : s.Inv) :
    ∃ t, exec i s = .next t ∧ s.RespondsWith (outputLength i) t := by
  cases i with
  | init n m => exact execInit_responds n m s
  | update data => exact execUpdate_responds data hinv
  | final outLen => exact execFinal_responds outLen hinv
  | hash outLen input n m => exact execHash_responds outLen input n m s

/-- Settles O26: a transaction that decodes runs a command, which gives its one response; one that does not is
answered `ERR_ILLEGAL`. -/
theorem everyTransactionGetsOneResponse : Obligations.EveryTransactionGetsOneResponse := by
  intro s t rest hinv hpending
  cases hd : decode t with
  | ok i =>
    have hinv' : State.Inv { s with pending := rest } := hinv
    obtain ⟨_, he, c, r, rfl, hempty, hlength⟩ := exec_responds i hinv'
    refine ⟨_, r, (step_legal hpending hd).trans he, rfl, rfl, hempty, fun j hj => ?_⟩
    cases hj
    exact hlength
  | error why => exact ⟨_, ⟨.errIllegal, []⟩, step_illegal hpending hd, rfl, rfl, fun _ => rfl, nofun⟩

end Sys2Proof.Machine
end

section
/-! PROOFS. The round trips between commands and transactions, the disjoint patterns, and the spec's sample words
(30_encoding.md R44 to R51, R56, R58). -/

namespace Sys2Proof.Machine

open Sys2Proof.Laws.EncodedHeader (assembled_fields mode_bit_lt)

/-! ## The mode bit (R47) -/

@[simp] theorem modeOfBit_bit (m : Mode) : modeOfBit m.bit = m := by
  cases m <;> rfl

theorem bit_modeOfBit {bit : Nat} (h : bit < 2) : (modeOfBit bit).bit = bit := by
  obtain rfl | rfl : bit = 0 ∨ bit = 1 := by omega
  all_goals rfl

/-! ## The decoder, by the opcode and format by format (R45, R46) -/

theorem decode_of_opInit {t : Transaction} (h : opcodeField t.word = opInit) : decode t = decodeInit t := by
  rw [decode, if_pos h]

theorem decode_of_opUpdate {t : Transaction} (h : opcodeField t.word = opUpdate) : decode t = decodeUpdate t := by
  rw [decode, h]; rfl

theorem decode_of_opFinal {t : Transaction} (h : opcodeField t.word = opFinal) : decode t = decodeFinal t := by
  rw [decode, h]; rfl

theorem decode_of_opHash {t : Transaction} (h : opcodeField t.word = opHash) : decode t = decodeHash t := by
  rw [decode, h]; rfl

theorem decodeInit_eq_ok_iff (t : Transaction) (i : Instr) :
    decodeInit t = .ok i ↔ rsvField t.word = 0 ∧ lenField t.word = 0 ∧ t.payload = [] ∧
      .init (obsField t.word) (modeOfBit (modeField t.word)) = i := by
  unfold decodeInit
  split_ifs <;> simp_all

theorem decodeUpdate_eq_ok_iff (t : Transaction) (i : Instr) :
    decodeUpdate t = .ok i ↔ rsvField t.word = 0 ∧ modeField t.word = 0 ∧ obsField t.word = 0 ∧
      lenField t.word = 0 ∧ .update t.payload = i := by
  unfold decodeUpdate
  split_ifs <;> simp_all
  tauto

theorem decodeFinal_eq_ok_iff (t : Transaction) (i : Instr) :
    decodeFinal t = .ok i ↔ rsvField t.word = 0 ∧ modeField t.word = 0 ∧ obsField t.word = 0 ∧ t.payload = [] ∧
      .final (lenField t.word) = i := by
  unfold decodeFinal
  split_ifs <;> simp_all
  tauto

theorem decodeHash_eq_ok_iff (t : Transaction) (i : Instr) :
    decodeHash t = .ok i ↔ rsvField t.word = 0 ∧
      .hash (lenField t.word) t.payload (obsField t.word) (modeOfBit (modeField t.word)) = i := by
  unfold decodeHash
  split_ifs <;> simp_all

/-! ## Decoding an encoding -/

theorem decode_encode {i : Instr} (h : i.wf = true) : decode (encode i) = .ok i := by
  cases i with
  | init obs mode =>
    have hobs : obs < 2 ^ 16 := by simpa [Instr.wf, obsFits] using h
    obtain ⟨hop, hrsv, hmode, hobs', hlen⟩ :=
      assembled_fields (op := opInit) (by decide) (mode_bit_lt mode) hobs (len := 0) (by decide)
    rw [decode_of_opInit hop, decodeInit_eq_ok_iff]
    exact ⟨hrsv, hlen, rfl, by simp only [encode, hobs', hmode, modeOfBit_bit]⟩
  | update data =>
    obtain ⟨hop, hrsv, hmode, hobs, hlen⟩ := assembled_fields (op := opUpdate) (mode := 0) (obs := 0) (len := 0)
      (by decide) (by decide) (by decide) (by decide)
    rw [decode_of_opUpdate hop, decodeUpdate_eq_ok_iff]
    exact ⟨hrsv, hmode, hobs, hlen, rfl⟩
  | final outLen =>
    have hout : outLen < 2 ^ 32 := by simpa [Instr.wf, lenFits] using h
    obtain ⟨hop, hrsv, hmode, hobs, hlen⟩ :=
      assembled_fields (op := opFinal) (mode := 0) (obs := 0) (by decide) (by decide) (by decide) hout
    rw [decode_of_opFinal hop, decodeFinal_eq_ok_iff]
    exact ⟨hrsv, hmode, hobs, rfl, by simp only [encode, hlen]⟩
  | hash outLen input obs mode =>
    obtain ⟨hout, hobs⟩ : outLen < 2 ^ 32 ∧ obs < 2 ^ 16 := by simpa [Instr.wf, lenFits, obsFits] using h
    obtain ⟨hop, hrsv, hmode, hobs', hlen⟩ :=
      assembled_fields (op := opHash) (by decide) (mode_bit_lt mode) hobs hout
    rw [decode_of_opHash hop, decodeHash_eq_ok_iff]
    exact ⟨hrsv, by simp only [encode, hlen, hobs', hmode, modeOfBit_bit]⟩

/-- Settles O2: an assembled word has the fields it was assembled from, and each format reads them back. -/
theorem decodeOfEncode : Obligations.DecodeOfEncode := fun _ h => decode_encode h

/-! ## Encoding what was decoded -/

theorem modeField_lt (w : CommandWord) : modeField w < 2 := Nat.mod_lt _ (by decide)
theorem obsField_lt (w : CommandWord) : obsField w < 2 ^ 16 := Nat.mod_lt _ (by decide)
theorem lenField_lt (w : CommandWord) : lenField w < 2 ^ 32 := Nat.mod_lt _ (by decide)

theorem obsFits_obsField (w : CommandWord) : obsFits (obsField w) = true := decide_eq_true (obsField_lt w)
theorem lenFits_lenField (w : CommandWord) : lenFits (lenField w) = true := decide_eq_true (lenField_lt w)

/-- A word without reserved bits is assembled from its own fields (R44). -/
theorem assembleWord_fields {w : CommandWord} (h : rsvField w = 0) :
    assembleWord (opcodeField w) (modeField w) (obsField w) (lenField w) = w := by
  rw [commandWord_ext_iff, h]
  exact assembled_fields (opcodeField_lt w) (modeField_lt w) (obsField_lt w) (lenField_lt w)

theorem encode_decodeInit {t : Transaction} {i : Instr} (hop : opcodeField t.word = opInit)
    (h : decodeInit t = .ok i) : i.wf = true ∧ encode i = t := by
  obtain ⟨hrsv, hlen, hpayload, rfl⟩ := (decodeInit_eq_ok_iff t i).1 h
  refine ⟨obsFits_obsField t.word, ?_⟩
  rw [encode, bit_modeOfBit (modeField_lt _), ← hop, ← hlen, assembleWord_fields hrsv, ← hpayload]

theorem encode_decodeUpdate {t : Transaction} {i : Instr} (hop : opcodeField t.word = opUpdate)
    (h : decodeUpdate t = .ok i) : i.wf = true ∧ encode i = t := by
  obtain ⟨hrsv, hmode, hobs, hlen, rfl⟩ := (decodeUpdate_eq_ok_iff t i).1 h
  have hword := assembleWord_fields hrsv
  rw [hop, hmode, hobs, hlen] at hword
  exact ⟨rfl, by rw [encode, hword]⟩

theorem encode_decodeFinal {t : Transaction} {i : Instr} (hop : opcodeField t.word = opFinal)
    (h : decodeFinal t = .ok i) : i.wf = true ∧ encode i = t := by
  obtain ⟨hrsv, hmode, hobs, hpayload, rfl⟩ := (decodeFinal_eq_ok_iff t i).1 h
  have hword := assembleWord_fields hrsv
  rw [hop, hmode, hobs] at hword
  exact ⟨lenFits_lenField t.word, by rw [encode, hword, ← hpayload]⟩

theorem encode_decodeHash {t : Transaction} {i : Instr} (hop : opcodeField t.word = opHash)
    (h : decodeHash t = .ok i) : i.wf = true ∧ encode i = t := by
  obtain ⟨hrsv, rfl⟩ := (decodeHash_eq_ok_iff t i).1 h
  refine ⟨?_, ?_⟩
  · rw [Instr.wf, lenFits_lenField, obsFits_obsField, Bool.and_self]
  · rw [encode, bit_modeOfBit (modeField_lt _), ← hop, assembleWord_fields hrsv]

/-- Settles O3: format by format, the fields read are those the word is assembled from, the others being zero. -/
theorem encodeOfDecode : Obligations.EncodeOfDecode := by
  intro t i h
  unfold decode at h
  split_ifs at h with init update final hash
  · exact encode_decodeInit init h
  · exact encode_decodeUpdate update h
  · exact encode_decodeFinal final h
  · exact encode_decodeHash hash h

/-! ## The patterns -/

/-- Every mask of R46 covers the opcode byte, so a selected word has the opcode of its pattern. -/
theorem opcodeField_of_selects {p : OpcodePattern} {w : CommandWord} (hp : p ∈ opcodePatterns)
    (h : p.selects w = true) : opcodeField w = opcodeField p.matchBits := by
  have mask : ∀ p ∈ opcodePatterns, opcodeField p.mask = 0xFF := by decide
  obtain ⟨hop, -⟩ := (selects_iff p w).1 h
  rwa [mask p hp, opcodeField_and_ones] at hop

/-- Settles O5: two patterns that select one word have its opcode, and the four opcodes differ. -/
theorem patternsPairwiseDisjoint : Obligations.PatternsPairwiseDisjoint := by
  intro w p hp q hq hpw hqw
  have opcode_injective : ∀ p ∈ opcodePatterns, ∀ q ∈ opcodePatterns,
      opcodeField p.matchBits = opcodeField q.matchBits → p = q := by decide
  exact opcode_injective p hp q hq ((opcodeField_of_selects hp hpw).symm.trans (opcodeField_of_selects hq hqw))

/-! ## The sample words -/

/-- Settles O1: seven closed words, each decoded by evaluation. -/
theorem sampleWordsDecode : Obligations.SampleWordsDecode := by
  unfold Obligations.SampleWordsDecode
  decide

end Sys2Proof.Machine
end

section
/-! PROOFS. One step for each host event, and the context invariant of 10_state.md R21 over every step. -/

namespace Sys2Proof.Machine

/-- Settles O7: the case of a step with a transaction that decodes. -/
theorem stepRunsDecodedCommand : Obligations.StepRunsDecodedCommand := fun _ _ _ _ => step_legal

/-- Settles O9: the case of a step with an empty queue. -/
theorem nothingHappensUnasked : Obligations.NothingHappensUnasked := fun _ => step_nothing

/-- Reset leaves an idle context in the sense of R21, whatever the state was. -/
theorem State.applyReset_idle (s : State) : s.applyReset.ctx.Idle := Context.cleared_idle (.inl rfl)

/-- Settles O8: the reset context is idle, which fixes every register but `PHASE`. -/
theorem resetFromAnyState : Obligations.ResetFromAnyState := by
  intro s rest presented
  have idle := State.applyReset_idle { s with pending := rest }
  exact ⟨_, step_reset presented, idle.bytes_zero, idle.rate, idle.capacity, idle.suffix, idle.offset, idle.mode,
    idle.obs, rfl, rfl, rfl⟩

/-- Settles O27: reset leaves an idle context. -/
theorem invariantAtReset : Obligations.InvariantAtReset := .inl State.reset_idle

/-! ## What each command does to the invariant -/

theorem execInit_keeps_inv {n : Nat} {m : Mode} {s t : State} (h : execInit n m s = .next t) : t.Inv := by
  obtain ⟨hlegal, he⟩ | ⟨-, he⟩ := execInit_cases n m s <;> cases he.symm.trans h
  · exact .inr (s.ctx.start_live hlegal)
  · exact .inl (s.raiseParameterError_idle _)

theorem execUpdate_keeps_inv {data : List Byte} {s t : State} (hinv : s.Inv) (h : execUpdate data s = .next t) :
    t.Inv := by
  obtain hidle | hlive := hinv
  · cases (execUpdate_idle data hidle.not_live).symm.trans h
    exact .inl hidle
  · obtain ⟨b, -, he⟩ := execUpdate_completes data hlive
    cases he.symm.trans h
    exact .inr (hlive.absorbed b (Nat.mod_lt _ hlive.rateBytes.2.1))

/-- `HASH` in a live phase changes nothing; in an idle one it leaves an idle context, whichever status it ends
with. -/
theorem execHash_keeps_inv {outLen : Nat} {input : List Byte} {n : Nat} {m : Mode} {s t : State} (hinv : s.Inv)
    (h : execHash outLen input n m s = .next t) : t.Inv := by
  cases hphase : s.ctx.phase.isLive with
  | true =>
    cases (execHash_live outLen input n m hphase).symm.trans h
    exact hinv
  | false =>
    by_cases hbad : legal m n = false ∨ outLenMismatches m outLen n = true
    · obtain ⟨cause, he⟩ := execHash_invalid outLen input n m hphase hbad
      cases he.symm.trans h
      exact .inl (s.raiseParameterError_idle cause)
    · obtain ⟨hl, hm⟩ : legal m n = true ∧ outLenMismatches m outLen n = false := by simpa using hbad
      obtain ⟨-, out, -, -, -, he⟩ := execHash_completes outLen input hphase hl hm
      cases he.symm.trans h
      exact .inl (s.complete_finalized_idle out)

theorem exec_keeps_inv {i : Instr} {s t : State} (hinv : s.Inv) (h : exec i s = .next t) : t.Inv := by
  cases i with
  | init n m => exact execInit_keeps_inv h
  | update data => exact execUpdate_keeps_inv hinv h
  | final outLen => exact .inl (exec_final_leaves_idle hinv h)
  | hash outLen input n m => exact execHash_keeps_inv hinv h

/-- The invariant speaks of the context alone: taking an event off the queue keeps it. -/
theorem State.Inv.take {s : State} (h : s.Inv) (rest : List HostEvent) :
    ({ s with pending := rest } : State).Inv := h

/-- Settles O28: by what a step can be; a command keeps the invariant, reset establishes it, and the other two kinds
of step do not touch the context. -/
theorem stepKeepsInvariant : Obligations.StepKeepsInvariant := by
  intro s t hinv h
  obtain ⟨-, he⟩ | ⟨rest, -, he⟩ | ⟨-, rest, i, -, -, he⟩ | ⟨-, rest, why, -, -, he⟩ := step_cases s
    <;> rw [he] at h
  · cases h
    exact hinv
  · cases h
    exact .inl (State.applyReset_idle _)
  · exact exec_keeps_inv (hinv.take rest) h
  · cases h
    exact hinv

/-- Settles O29: under the invariant every command ends, and the other three kinds of step always do. -/
theorem noStepStopsUnderInvariant : Obligations.NoStepStopsUnderInvariant := by
  intro s hinv
  obtain ⟨-, he⟩ | ⟨rest, -, he⟩ | ⟨-, rest, i, -, -, he⟩ | ⟨-, rest, why, -, -, he⟩ := step_cases s
    <;> rw [he]
  · exact ⟨_, rfl⟩
  · exact ⟨_, rfl⟩
  · obtain ⟨t, hexec, -⟩ := exec_responds i (hinv.take rest)
    exact ⟨t, hexec⟩
  · exact ⟨_, rfl⟩

end Sys2Proof.Machine
end

section
/-! PROOFS. Bytes and lanes as numbers, and what a write leaves alone (10_state.md R14, 20_memory.md R31). -/

namespace Sys2Proof.Machine

/-- Byte `j` of lane `i` is the slice `A[i][8*j+7 : 8*j]`. -/
theorem Buffer.byte_toNat (b : Buffer) (i : Nat) {j : Nat} (hj : j < 8) :
    (b.byte (8 * i + j)).toNat = (b.lane i).toNat / 2 ^ (8 * j) % 2 ^ 8 := by
  have hlane : (8 * i + j) / 8 = i := by omega
  have hplace : (8 * i + j) % 8 = j := by omega
  rw [Buffer.byte, hlane, hplace, BitVec.extractLsb'_toNat, Nat.shiftRight_eq_div_pow]

/-- A lane is the number its eight bytes write in base 256. -/
theorem Buffer.lane_toNat_eq_bytes (b : Buffer) (i : Nat) :
    (b.lane i).toNat =
      (b.byte (8 * i)).toNat + 2 ^ 8 * (b.byte (8 * i + 1)).toNat + 2 ^ 16 * (b.byte (8 * i + 2)).toNat +
      2 ^ 24 * (b.byte (8 * i + 3)).toNat + 2 ^ 32 * (b.byte (8 * i + 4)).toNat +
      2 ^ 40 * (b.byte (8 * i + 5)).toNat + 2 ^ 48 * (b.byte (8 * i + 6)).toNat +
      2 ^ 56 * (b.byte (8 * i + 7)).toNat := by
  have byte0 := b.byte_toNat i (j := 0) (by decide)
  have bound := (b.lane i).isLt
  rw [Nat.add_zero] at byte0
  rw [byte0, b.byte_toNat i (j := 1) (by decide), b.byte_toNat i (j := 2) (by decide),
    b.byte_toNat i (j := 3) (by decide), b.byte_toNat i (j := 4) (by decide), b.byte_toNat i (j := 5) (by decide),
    b.byte_toNat i (j := 6) (by decide), b.byte_toNat i (j := 7) (by decide)]
  omega

/-- A lane write is seen through the byte view. -/
theorem Buffer.byte_setLane_toNat (b : Buffer) {i j : Nat} (v : Lane) (hi : i < 25) (hj : j < 8) :
    ((b.setLane i v).byte (8 * i + j)).toNat = v.toNat / 2 ^ (8 * j) % 2 ^ 8 := by
  rw [Buffer.byte_toNat _ i hj, Buffer.lane_setLane_same b v hi]

/-- A byte write is seen through the lane view. -/
theorem Buffer.lane_setByte_toNat (b : Buffer) {k : Nat} (v : Byte) (hk : k < 200) :
    ((b.setByte k v).lane (k / 8)).toNat / 2 ^ (8 * (k % 8)) % 2 ^ 8 = v.toNat := by
  rw [← Buffer.byte_toNat _ _ (Nat.mod_lt k (by decide)), Nat.div_add_mod, Buffer.byte_setByte_same b v hk]

/-- Settles O34: the byte as a slice of its lane, and the other three clauses from it. -/
theorem bytesAndLanesAreOneStorage : Obligations.BytesAndLanesAreOneStorage :=
  ⟨fun b i _ => b.lane_toNat_eq_bytes i, fun b i _ _ hj => b.byte_toNat i hj,
    fun b _ _ v hi hj => b.byte_setLane_toNat v hi hj, fun b _ v hk => b.lane_setByte_toNat v hk⟩

/-- A byte write leaves every bit of its lane outside the byte alone. -/
theorem Buffer.lane_setByte_bit (b : Buffer) {k p : Nat} (v : Byte) (hk : k < 200) (hp : p < 64)
    (hout : p < 8 * (k % 8) ∨ 8 * (k % 8) + 8 ≤ p) :
    ((b.setByte k v).lane (k / 8)).getLsbD p = (b.lane (k / 8)).getLsbD p := by
  have hother : p / 8 ≠ k % 8 := by omega
  rw [Buffer.setByte, Buffer.lane_setLane_same _ _ (by omega), laneWithByte_bit _ _ _ _ hp, if_neg hother]

/-- A lane write leaves every byte of the other lanes alone. -/
theorem Buffer.byte_setLane_ne (b : Buffer) {i k : Nat} (v : Lane) (h : i ≠ k / 8) :
    (b.setLane i v).byte k = b.byte k := by
  rw [Buffer.byte, Buffer.lane_setLane_ne b v h, Buffer.byte]

/-- Settles O35: read after write, and the frames of a byte write and a lane write. -/
theorem writesTouchNothingElse : Obligations.WritesTouchNothingElse := by
  refine ⟨fun b k v hk => ⟨b.byte_setByte_same v hk, fun n hn => b.byte_setByte_ne v hn.symm,
    fun i hi => b.lane_setLane_ne _ hi.symm, fun p hp hout => b.lane_setByte_bit v hk hp hout⟩,
    fun b i v hi => ⟨b.lane_setLane_same v hi, fun k hout => b.byte_setLane_ne v (by omega)⟩⟩

end Sys2Proof.Machine
end

section
/-! PROOFS. The five steps of a round, lane by lane, and the fused RHO and PI (40_permutation.md R63 to R68). -/

namespace Sys2Proof.Machine

/-! ## THETA (R63) -/

theorem columnParities_getD_eq (b : Buffer) {x : Nat} (h : x < 5) :
    (columnParities b).getD x 0 = columnParity b x := by
  rw [columnParities_getD b h, columnParity]

/-- `THETA` in coordinates. -/
theorem theta_laneAt (b : Buffer) {x y : Nat} (hx : x < 5) (hy : y < 5) :
    (theta b).laneAt x y =
      b.laneAt x y ^^^ (rotl64 (columnParity b ((x + 1) % 5)) 1 ^^^ columnParity b ((x + 4) % 5)) := by
  have hcolumn : (x + 5 * y) % 5 = x := by omega
  have hwrap (n : Nat) : n % 5 < 5 := Nat.mod_lt n (by decide)
  rw [Buffer.laneAt, theta_lane b (by omega), hcolumn, thetaEffect_getD _ hx, columnParities_getD_eq b (hwrap _),
    columnParities_getD_eq b (hwrap _), Buffer.laneAt]

/-- Two buffers that agree in coordinates are equal (10_state.md R15). -/
theorem Buffer.ext_laneAt {a b : Buffer} (h : ∀ x < 5, ∀ y < 5, a.laneAt x y = b.laneAt x y) : a = b := by
  apply Buffer.ext_lane
  intro i hi
  have := h (i % 5) (by omega) (i / 5) (by omega)
  rwa [Buffer.laneAt, Buffer.laneAt, Nat.mod_add_div] at this

theorem theta_of_even_columns {b : Buffer} (h : ∀ x < 5, columnParity b x = 0) : theta b = b := by
  apply Buffer.ext_laneAt
  intro x hx y hy
  rw [theta_laneAt b hx hy, h _ (Nat.mod_lt _ (by decide)), h _ (Nat.mod_lt _ (by decide))]
  simp

/-- Settles O36: the formula, and its two corner cases, where every column parity is zero. -/
theorem thetaFormula : Obligations.ThetaFormula :=
  ⟨fun b _ _ hx hy => theta_laneAt b hx hy, theta_zero, fun _ => theta_of_even_columns⟩

/-! ## RHO (R64) -/

/-- Settles O37: along the walk the table holds the walk's offset; the facts about the table are read off it. -/
theorem rhoFormula : Obligations.RhoFormula := by
  have walk : ∀ p ∈ rhoWalk 24 0 1 0, p.1 < 25 ∧ rhoOffset p.1 = p.2 := by decide
  refine ⟨fun b => ⟨?_, fun p hp => ?_⟩, by decide, by decide, by decide⟩
  · rw [rho_lane b (by decide)]
    exact rotl64_zero _
  · obtain ⟨hlane, hoffset⟩ := walk p hp
    rw [rho_lane b hlane, hoffset]

/-! ## PI (R65) -/

/-- `PI` read from the destination: which position each lane comes from. -/
theorem pi_laneAt_of_source (b : Buffer) {x y i : Nat} (hx : x < 5) (hy : y < 5)
    (hsource : piTable.idxOf (x + 5 * y) = i) : (pi b).laneAt x y = b.lane i := by
  rw [Buffer.laneAt, pi_lane b (by omega), hsource]

/-- Settles O38: the printed table agrees with both readings of the formula at every coordinate. -/
theorem piFormula : Obligations.PiFormula := by
  have forward : ∀ x < 5, ∀ y < 5, piTable.idxOf (y + 5 * ((2 * x + 3 * y) % 5)) = x + 5 * y := by decide
  have inverse : ∀ x < 5, ∀ y < 5, piTable.idxOf (x + 5 * y) = (x + 3 * y) % 5 + 5 * x := by decide
  have printed : ∀ x < 5, ∀ y < 5, piDest (x + 5 * y) = y + 5 * ((2 * x + 3 * y) % 5) := by decide
  refine ⟨fun b x y hx hy => ⟨?_, ?_, printed x hx y hy⟩, by decide, by decide, by decide⟩
  · exact pi_laneAt_of_source b hy (Nat.mod_lt _ (by decide)) (forward x hx y hy)
  · exact pi_laneAt_of_source b hx hy (inverse x hx y hy)

/-! ## CHI (R66) -/

/-- `CHI` in coordinates. -/
theorem chi_laneAt (b : Buffer) {x y : Nat} (hx : x < 5) (hy : y < 5) :
    (chi b).laneAt x y = b.laneAt x y ^^^ (~~~ b.laneAt ((x + 1) % 5) y &&& b.laneAt ((x + 2) % 5) y) := by
  have hcolumn : (x + 5 * y) % 5 = x := by omega
  have hrow : (x + 5 * y) / 5 = y := by omega
  rw [Buffer.laneAt, chi_lane b (by omega), hcolumn, hrow, ← Buffer.laneAt]

/-- In a row of all ones the complement is zero, so no lane is changed. -/
theorem chi_row_of_ones {b : Buffer} {y : Nat} (hy : y < 5) (h : ∀ x < 5, b.laneAt x y = 0xFFFFFFFFFFFFFFFF) {x : Nat}
    (hx : x < 5) : (chi b).laneAt x y = 0xFFFFFFFFFFFFFFFF := by
  rw [chi_laneAt b hx hy, h x hx, h _ (Nat.mod_lt _ (by decide)), h _ (Nat.mod_lt _ (by decide))]
  decide

/-- Settles O39: the formula, and the two rows it leaves as they are. -/
theorem chiFormula : Obligations.ChiFormula :=
  ⟨fun b _ _ hx hy => chi_laneAt b hx hy, chi_zero, fun _ _ hy h _ hx => chi_row_of_ones hy h hx⟩

/-! ## IOTA (R67) -/

theorem roundConstant_generated : ∀ r < 24, roundConstant r = generatedRoundConstant r := by
  decide +kernel

/-- Settles O40: `IOTA` lane by lane, with the table run against the shift register; the facts about the 24 constants
are read off the table. -/
theorem iotaFormula : Obligations.IotaFormula := by
  refine ⟨fun b r hr => ⟨?_, fun i hi => iota_lane_ne r b hi⟩, by decide, by decide⟩
  rw [iota_lane_zero, roundConstant_generated r hr]

/-! ## The fused RHO and PI (R68) -/

/-- The lane moves of a walk along a chain, `(from, to, amount)`: each lane goes to the next position. -/
def chainMoves : (start : Nat) → List (Nat × Nat) → List (Nat × Nat × Nat)
  | _, [] => []
  | start, link :: rest => (start, link.1, link.2) :: chainMoves link.1 rest

/-- Walking a chain leaves the positions that are not on it alone. -/
theorem chainWalk_lane_of_not_mem {links : List (Nat × Nat)} (b : Buffer) (v : Lane) {i : Nat}
    (h : i ∉ links.map Prod.fst) : (links.foldl chainStep (b, v)).1.lane i = b.lane i := by
  induction links generalizing b v with
  | nil => rfl
  | cons link rest ih =>
    rw [List.map_cons, List.mem_cons, not_or] at h
    obtain ⟨hne, hrest⟩ := h
    exact (ih _ _ hrest).trans (Buffer.lane_setLane_ne b _ (Ne.symm hne))

/-- Walking a chain of distinct positions makes the moves of the chain at once, each lane as it was in `old`: the lane
carried is an old one, and a position not yet reached still holds its old lane. -/
theorem chainWalk_lane (old : Buffer) {links : List (Nat × Nat)} {start : Nat} {b : Buffer} {v : Lane}
    (hdistinct : (links.map Prod.fst).Nodup) (hlanes : ∀ i ∈ links.map Prod.fst, i < 25)
    (hcarried : v = old.lane start) (hold : ∀ i ∈ links.map Prod.fst, b.lane i = old.lane i) :
    ∀ move ∈ chainMoves start links,
      (links.foldl chainStep (b, v)).1.lane move.2.1 = rotl64 (old.lane move.1) move.2.2 := by
  induction links generalizing start b v with
  | nil => simp [chainMoves]
  | cons link rest ih =>
    simp only [List.map_cons, List.nodup_cons, List.forall_mem_cons] at hdistinct hlanes hold
    obtain ⟨hfresh, hdistinct⟩ := hdistinct
    rw [chainMoves, List.forall_mem_cons]
    constructor
    · rw [List.foldl_cons, chainStep, chainWalk_lane_of_not_mem _ _ hfresh, Buffer.lane_setLane_same _ _ hlanes.1,
        hcarried]
    · refine ih hdistinct hlanes.2 hold.1 fun i hi => ?_
      have hne : link.1 ≠ i := fun h => hfresh (h ▸ hi)
      rw [Buffer.lane_setLane_ne _ _ hne, hold.2 i hi]

/-- Settles O41: the moves of the printed chain are those of the two tables, and lane 0, which no move reaches, is
fixed by both. -/
theorem fusedRhoPiEqualsSteps : Obligations.FusedRhoPiEqualsSteps := by
  intro b
  have source_lt : ∀ i < 25, piTable.idxOf i < 25 := by decide
  have distinct : ((chainPositions.zip chainRotations).map Prod.fst).Nodup := by decide
  have lanes : ∀ i ∈ (chainPositions.zip chainRotations).map Prod.fst, i < 25 := by decide
  have moves : ∀ i < 25, i ≠ 0 → (piTable.idxOf i, i, rhoOffset (piTable.idxOf i)) ∈
      chainMoves 1 (chainPositions.zip chainRotations) := by decide
  apply Buffer.ext_lane
  intro i hi
  rw [pi_lane _ hi, rho_lane _ (source_lt i hi), rhoPi]
  by_cases hzero : i = 0
  · subst hzero
    rw [chainWalk_lane_of_not_mem b _ (by decide)]
    exact (rotl64_zero _).symm
  · have walked := chainWalk_lane b distinct lanes rfl (fun _ _ => rfl) _ (moves i hi hzero)
    exact walked

end Sys2Proof.Machine
end

section
/-! PROOFS. The output of `SQUEEZE` byte by byte, its edge case, and its state machine (42_squeeze.md R82 to R88,
70_reset_and_hazards.md R136). -/

namespace Sys2Proof.Machine

/-! ## The edge case (R83) -/

theorem padCollides_iff (suffix : Byte) (offset rb : Nat) :
    padCollides suffix offset rb = true ↔ suffix.getLsbD 7 = true ∧ offset = rb - 1 := by
  simp [padCollides]

theorem padCollides_eq_false_of_bit {suffix : Byte} (h : suffix.getLsbD 7 = false) (offset rb : Nat) :
    padCollides suffix offset rb = false := by
  rw [padCollides, h, Bool.false_and]

theorem padAndPermute_of_collision (b : Buffer) {offset rb : Nat} {suffix : Byte}
    (h : padCollides suffix offset rb = true) :
    padAndPermute b offset rb suffix = permute ((permute (b.xorByte offset suffix)).xorByte (rb - 1) 0x80) := by
  simp only [padAndPermute, h, if_true]

theorem padAndPermute_of_no_collision (b : Buffer) {offset rb : Nat} {suffix : Byte}
    (h : padCollides suffix offset rb = false) :
    padAndPermute b offset rb suffix = permute ((b.xorByte offset suffix).xorByte (rb - 1) 0x80) := by
  simp only [padAndPermute, h, Bool.false_eq_true, if_false]

theorem suffixOf_bit_seven (m : Mode) : (suffixOf m).getLsbD 7 = false := by
  cases m <;> decide

theorem Context.Live.suffix_eq {c : Context} (h : c.Live) : c.suffix = suffixOf c.mode :=
  h.suffix.trans (suffixOf_eq_ite c.mode).symm

/-- Settles O46: both suffixes of the engine have bit 7 clear. -/
theorem edgeCaseNeverFires : Obligations.EdgeCaseNeverFires := fun c hlive =>
  padCollides_eq_false_of_bit (hlive.suffix_eq ▸ suffixOf_bit_seven c.mode) _ _

/-! ## The output (R85, R86) -/

/-- Settles O45: the loop emits the output bytes of the padded buffer, which the edge case tells apart. -/
theorem squeezeOutputBytes : Obligations.SqueezeOutputBytes := by
  intro c outLen rate suffix hmod hpos hmax hoff
  obtain ⟨⟨b, out⟩, hsqueeze, hr, -⟩ := squeeze_completes c outLen suffix hmod hpos hmax hoff
  have hout : out = (List.range outLen).map
      (outputByte (rate / 8) (padAndPermute c.buffer c.offset.toNat (rate / 8) suffix)) := by
    rw [← emitBlocks_eq_output (by omega) outLen outLen _ (Nat.le_refl _), ← hr]
  refine ⟨b, out, hsqueeze, fun hedge => ?_, fun hplain => ?_⟩
  · rw [hout, padAndPermute_of_collision _ ((padCollides_iff _ _ _).2 hedge)]
  · rw [← padCollides_iff, Bool.not_eq_true] at hplain
    rw [hout, padAndPermute_of_no_collision _ hplain]

/-- An accepted `FINAL` on a live context answers the output bytes of the padded buffer. -/
theorem exec_final_outputs {outLen : Nat} {s : State} (hlive : s.ctx.Live)
    (hlen : s.ctx.mode = .sha3 → outLen = s.ctx.obs.toNat / 8) :
    exec (.final outLen) s = .next (s.complete (.cleared .finalized) ((List.range outLen).map
      (outputByte s.ctx.rateBytes
        (padAndPermute s.ctx.buffer s.ctx.offset.toNat s.ctx.rateBytes s.ctx.suffix)))) := by
  obtain ⟨out, rfl, -, he⟩ := execFinal_completes outLen hlive ((outLenMismatches_eq_false _ _ _).2 hlen)
  rw [exec_final, he, emitBlocks_eq_output hlive.rateBytes.2.1 _ _ _ (Nat.le_refl _)]

/-- Settles O21: under SHAKE both lengths are accepted, and each output byte depends on its position alone. -/
theorem shakePrefixStability : Obligations.ShakePrefixStability := by
  intro short long s hlive hmode hle
  have accepted (outLen : Nat) : s.ctx.mode = .sha3 → outLen = s.ctx.obs.toNat / 8 := by
    rw [hmode]
    exact nofun
  refine ⟨_, _, _, exec_final_outputs hlive (accepted short), exec_final_outputs hlive (accepted long), rfl, ?_⟩
  rw [State.complete_responses, ← List.map_take, List.take_range, Nat.min_eq_left hle]

/-! ## The loop by the number of blocks to come (R85) -/

theorem emitBlocks_rem_zero (rb turns : Nat) (b : Buffer) : emitBlocks rb turns 0 b = (b, []) := by
  cases turns <;> rfl

theorem emitBlocks_last {rb rem : Nat} (turns : Nat) (b : Buffer) (hpos : 0 < rem) (hlast : rem ≤ rb) :
    emitBlocks rb (turns + 1) rem b = (b, b.firstBytes rem) := by
  rw [emitBlocks, if_neg (by omega), Nat.min_eq_right hlast, if_pos (Nat.sub_self rem)]

theorem emitBlocks_more {rb rem : Nat} (turns : Nat) (b : Buffer) (hmore : rb < rem) :
    emitBlocks rb (turns + 1) rem b =
      ((emitBlocks rb turns (rem - rb) (permute b)).1,
        b.firstBytes rb ++ (emitBlocks rb turns (rem - rb) (permute b)).2) := by
  rw [emitBlocks, if_neg (by omega), Nat.min_eq_left hmore.le, if_neg (by omega)]

/-- The `PERMUTE` calls between output blocks when `rem` bytes are to come: one fewer than there are blocks. -/
def gapsBetweenBlocks (rb rem : Nat) : Nat := (rem + rb - 1) / rb - 1

theorem gapsBetweenBlocks_of_le {rb rem : Nat} (hrb : 0 < rb) (h : rem ≤ rb) : gapsBetweenBlocks rb rem = 0 := by
  have : (rem + rb - 1) / rb < 2 := (Nat.div_lt_iff_lt_mul hrb).2 (by omega)
  rw [gapsBetweenBlocks]
  omega

theorem gapsBetweenBlocks_of_gt {rb rem : Nat} (hrb : 0 < rb) (h : rb < rem) :
    gapsBetweenBlocks rb rem = gapsBetweenBlocks rb (rem - rb) + 1 := by
  have blocks : (rem + rb - 1) / rb = (rem - rb + rb - 1) / rb + 1 := by
    rw [← Nat.add_div_right _ hrb]
    congr 1
    omega
  have : 0 < (rem - rb + rb - 1) / rb := Nat.div_pos (by omega) hrb
  rw [gapsBetweenBlocks, gapsBetweenBlocks]
  omega

/-! ## The state machine (R87) -/

section Fsm

variable {offset rb : Nat} {suffix : Byte}

/-- Some number of micro-steps leads from `m` to `m'`. -/
def SqueezeFsm.Reaches (offset rb : Nat) (suffix : Byte) (m m' : SqueezeFsm) : Prop :=
  ∃ k, SqueezeFsm.run offset rb suffix k m = m'

theorem SqueezeFsm.Reaches.refl (m : SqueezeFsm) : Reaches offset rb suffix m m := ⟨0, rfl⟩

theorem SqueezeFsm.Reaches.of_step {m next m' : SqueezeFsm} (hstep : m.step offset rb suffix = next)
    (h : Reaches offset rb suffix next m') : Reaches offset rb suffix m m' := by
  subst hstep
  obtain ⟨k, hk⟩ := h
  exact ⟨k + 1, hk⟩

theorem SqueezeFsm.step_suffix_of_collision (h : padCollides suffix offset rb = true) (b : Buffer) (rem : Nat)
    (out : List Byte) (permutes : Nat) :
    SqueezeFsm.step offset rb suffix ⟨.suffix, b, rem, out, permutes⟩ =
      ⟨.edge, b.xorByte offset suffix, rem, out, permutes⟩ := by
  simp only [SqueezeFsm.step, h, if_true]

theorem SqueezeFsm.step_suffix_of_no_collision (h : padCollides suffix offset rb = false) (b : Buffer) (rem : Nat)
    (out : List Byte) (permutes : Nat) :
    SqueezeFsm.step offset rb suffix ⟨.suffix, b, rem, out, permutes⟩ =
      ⟨.pad, b.xorByte offset suffix, rem, out, permutes⟩ := by
  simp only [SqueezeFsm.step, h, Bool.false_eq_true, if_false]

theorem SqueezeFsm.step_test_pos {rem : Nat} (h : 0 < rem) (b : Buffer) (out : List Byte) (permutes : Nat) :
    SqueezeFsm.step offset rb suffix ⟨.test, b, rem, out, permutes⟩ = ⟨.emit, b, rem, out, permutes⟩ := by
  simp only [SqueezeFsm.step, h, if_true]

theorem SqueezeFsm.step_emit_last {rem : Nat} (h : rem ≤ rb) (b : Buffer) (out : List Byte) (permutes : Nat) :
    SqueezeFsm.step offset rb suffix ⟨.emit, b, rem, out, permutes⟩ =
      ⟨.done, b, 0, out ++ b.firstBytes rem, permutes⟩ := by
  simp only [SqueezeFsm.step, Nat.min_eq_right h, Nat.sub_self, Nat.lt_irrefl, if_false]

theorem SqueezeFsm.step_emit_more {rem : Nat} (h : rb < rem) (b : Buffer) (out : List Byte) (permutes : Nat) :
    SqueezeFsm.step offset rb suffix ⟨.emit, b, rem, out, permutes⟩ =
      ⟨.permute, b, rem - rb, out ++ b.firstBytes rb, permutes⟩ := by
  have hpos : 0 < rem - rb := by omega
  simp only [SqueezeFsm.step, Nat.min_eq_left h.le, hpos, if_true]

theorem SqueezeFsm.test_zero_reaches_done (hrb : 0 < rb) (turns : Nat) (b : Buffer) (out : List Byte)
    (permutes : Nat) :
    Reaches offset rb suffix ⟨.test, b, 0, out, permutes⟩
      ⟨.done, (emitBlocks rb turns 0 b).1, 0, out ++ (emitBlocks rb turns 0 b).2,
        permutes + gapsBetweenBlocks rb 0⟩ := by
  rw [emitBlocks_rem_zero, List.append_nil, gapsBetweenBlocks_of_le hrb (Nat.zero_le rb)]
  exact .of_step rfl (.refl _)

/-- The turns of `Q_TEST`, `Q_EMIT` and `Q_PERMUTE` are those of the loop of `SQUEEZE`. -/
theorem SqueezeFsm.test_reaches_done (hrb : 0 < rb) {turns rem : Nat} (hturns : rem ≤ turns) (b : Buffer)
    (out : List Byte) (permutes : Nat) :
    Reaches offset rb suffix ⟨.test, b, rem, out, permutes⟩
      ⟨.done, (emitBlocks rb turns rem b).1, 0, out ++ (emitBlocks rb turns rem b).2,
        permutes + gapsBetweenBlocks rb rem⟩ := by
  induction turns generalizing rem b out permutes with
  | zero =>
    obtain rfl := Nat.le_zero.1 hturns
    exact test_zero_reaches_done hrb 0 b out permutes
  | succ turns ih =>
    obtain rfl | hpos := Nat.eq_zero_or_pos rem
    · exact test_zero_reaches_done hrb (turns + 1) b out permutes
    · refine .of_step (step_test_pos hpos b out permutes) ?_
      obtain hlast | hmore := le_or_gt rem rb
      · rw [emitBlocks_last turns b hpos hlast, gapsBetweenBlocks_of_le hrb hlast]
        exact .of_step (step_emit_last hlast b out permutes) (.refl _)
      · refine .of_step (step_emit_more hmore b out permutes) (.of_step rfl ?_)
        have rest := ih (rem := rem - rb) (by omega) (permute b) (out ++ b.firstBytes rb) (permutes + 1)
        rwa [emitBlocks_more turns b hmore, gapsBetweenBlocks_of_gt hrb hmore, ← List.append_assoc,
          Nat.add_comm (gapsBetweenBlocks rb (rem - rb)) 1, ← Nat.add_assoc]

/-- From `Q_SUFFIX` to the first `Q_TEST`: steps 1 to 4 of `SQUEEZE`, with one or two `PERMUTE` calls. -/
theorem SqueezeFsm.suffix_reaches_of_test {b : Buffer} {rem : Nat} {out : List Byte} {m : SqueezeFsm}
    (h : Reaches offset rb suffix
      ⟨.test, padAndPermute b offset rb suffix, rem, out, (if padCollides suffix offset rb then 1 else 0) + 1⟩ m) :
    Reaches offset rb suffix ⟨.suffix, b, rem, out, 0⟩ m := by
  cases hedge : padCollides suffix offset rb with
  | true =>
    rw [padAndPermute_of_collision b hedge, hedge] at h
    exact .of_step (step_suffix_of_collision hedge b rem out 0) (.of_step rfl (.of_step rfl (.of_step rfl h)))
  | false =>
    rw [padAndPermute_of_no_collision b hedge, hedge] at h
    exact .of_step (step_suffix_of_no_collision hedge b rem out 0) (.of_step rfl (.of_step rfl h))

end Fsm

/-- Settles O48: `Q_SUFFIX` to `Q_PERMUTE` are steps 1 to 4 of `SQUEEZE`, and the micro-states after them its loop. -/
theorem squeezeFsmRefinesSqueeze : Obligations.SqueezeFsmRefinesSqueeze := by
  intro c outLen rate suffix hmod hpos hmax hoff
  obtain ⟨⟨b, out⟩, hsqueeze, hr, hlength⟩ := squeeze_completes c outLen suffix hmod hpos hmax hoff
  have loop := SqueezeFsm.test_reaches_done (offset := c.offset.toNat) (suffix := suffix) (rb := rate / 8) (by omega)
    (Nat.le_refl outLen) (padAndPermute c.buffer c.offset.toNat (rate / 8) suffix) []
    ((if padCollides suffix c.offset.toNat (rate / 8) then 1 else 0) + 1)
  obtain ⟨k, hk⟩ := SqueezeFsm.suffix_reaches_of_test loop
  rw [← hr] at hk
  refine ⟨b, out, k, _, hsqueeze, hlength, hk, rfl, rfl, List.nil_append out, ?_⟩
  simp only [padCollides_iff, gapsBetweenBlocks]

end Sys2Proof.Machine
end

section
/-! PROOFS. The laws of `INIT`, `UPDATE` and `FINAL` on a live context (43_streaming_engine.md R92 to R96, 41_absorb.md
R75 to R79), and the state machine of `ABSORB` (R78). -/

namespace Sys2Proof.Machine

/-- Settles O11: every register `INIT` leaves comes from its operands. -/
theorem initForgetsThePast : Obligations.InitForgetsThePast := by
  intro n m s u t v ht hv
  by_cases hlegal : LegalPair m n
  · cases (exec_init_of_legalPair s hlegal).symm.trans ht
    cases (exec_init_of_legalPair u hlegal).symm.trans hv
    rfl
  · cases (exec_init_of_not_legalPair s hlegal).symm.trans ht
    cases (exec_init_of_not_legalPair u hlegal).symm.trans hv
    rfl

/-- Settles O20: the failed `FINAL` leaves an idle phase, in which the next one is the usage error. -/
theorem failedFinalLosesTheComputation : Obligations.FailedFinalLosesTheComputation := by
  intro bad outLen s hlive hmode hbad
  exact ⟨_, _, exec_final_of_mismatch hlive.is_live ⟨hmode, hbad⟩, execFinal_idle outLen rfl, rfl,
    List.append_assoc s.responses _ _⟩

/-! ## What an accepted `UPDATE` leaves -/

/-- The context an accepted `UPDATE` leaves, with buffer `b` and fill count `fill` from the loop of `ABSORB`. -/
def Context.afterUpdate (c : Context) (b : Buffer) (fill : Nat) : Context :=
  { c with buffer := b, offset := BitVec.ofNat 8 fill, phase := .absorbing }

/-- The loop of `ABSORB` on a live context completes, with the fill count of R79 law 1. -/
theorem Context.Live.absorbBytes_completes {c : Context} (h : c.Live) (data : List Byte) :
    ∃ b fill, absorbBytes c.rateBytes data c.buffer c.offset.toNat = .done (b, fill) ∧
      fill = (c.offset.toNat + data.length) % c.rateBytes ∧ fill < c.rateBytes := by
  obtain ⟨hmax, hpos, hoff⟩ := h.rateBytes
  obtain ⟨b, hb⟩ := Machine.absorbBytes_completes hmax data c.buffer hoff
  exact ⟨b, _, hb, rfl, Nat.mod_lt _ hpos⟩

theorem exec_update_of_absorbBytes {data : List Byte} {s : State} (hlive : s.ctx.Live) {b : Buffer} {fill : Nat}
    (h : absorbBytes s.ctx.rateBytes data s.ctx.buffer s.ctx.offset.toNat = .done (b, fill)) :
    exec (.update data) s = .next (s.complete (s.ctx.afterUpdate b fill) []) := by
  obtain ⟨b', hb', he⟩ := execUpdate_completes data hlive
  cases hb'.symm.trans h
  exact he

theorem Context.Live.afterUpdate {c : Context} (h : c.Live) (b : Buffer) {fill : Nat} (hfill : fill < c.rateBytes) :
    (c.afterUpdate b fill).Live := h.absorbed b hfill

/-- The fill count survives being stored in `OFFSET`. -/
theorem Context.Live.afterUpdate_offset {c : Context} (h : c.Live) (b : Buffer) {fill : Nat}
    (hfill : fill < c.rateBytes) : (c.afterUpdate b fill).offset.toNat = fill :=
  offset_toNat hfill h.rateBytes.1

/-- Settles O13: one turn of the loop of `ABSORB`. -/
theorem updateOneByte : Obligations.UpdateOneByte := by
  intro x s hlive
  obtain ⟨hmax, hpos, hoff⟩ := hlive.rateBytes
  have turn := absorbBytes_cons s.ctx.rateBytes x [] s.ctx.buffer (fill := s.ctx.offset.toNat) (by omega)
  by_cases hfull : s.ctx.offset.toNat + 1 = s.ctx.rateBytes
  · rw [if_pos hfull] at turn
    exact ⟨_, exec_update_of_absorbBytes hlive turn, fun _ => ⟨rfl, rfl⟩, fun hpart => absurd hfull hpart⟩
  · rw [if_neg hfull] at turn
    exact ⟨_, exec_update_of_absorbBytes hlive turn, fun hfull' => absurd hfull' hfull,
      fun _ => ⟨rfl, hlive.afterUpdate_offset _ (by omega)⟩⟩

/-- Settles O14: the loop of `ABSORB` inside a block. -/
theorem updateInsideABlock : Obligations.UpdateInsideABlock := by
  intro data s hlive hinside
  obtain ⟨b, hb, hpayload, hframe⟩ := absorbBytes_inside hlive.rateBytes.1 data s.ctx.buffer _ hinside
  exact ⟨_, exec_update_of_absorbBytes hlive hb, hlive.afterUpdate_offset b hinside, hpayload, fun k _ => hframe k⟩

/-- Settles O15: the fill count of the loop of `ABSORB`, stored in `OFFSET` without wrapping. -/
theorem updateOffsetLaw : Obligations.UpdateOffsetLaw := by
  intro data s t hlive h
  obtain ⟨b, fill, hb, hmod, hlt⟩ := hlive.absorbBytes_completes data
  cases (exec_update_of_absorbBytes hlive hb).symm.trans h
  exact (hlive.afterUpdate_offset b hlt).trans hmod

/-- Settles O16: the loop over `p ++ q` is the loop over `p` and then over `q`. -/
theorem updateChunking : Obligations.UpdateChunking := by
  intro p q s hlive
  obtain ⟨b, fill, hb, -, hlt⟩ := hlive.absorbBytes_completes p
  have hlive' := hlive.afterUpdate b hlt
  obtain ⟨b', fill', hb', -, -⟩ := hlive'.absorbBytes_completes q
  have both : absorbBytes s.ctx.rateBytes (p ++ q) s.ctx.buffer s.ctx.offset.toNat = .done (b', fill') := by
    rw [absorbBytes_append _ p q _ _ hb, ← hb', hlive.afterUpdate_offset b hlt]
    rfl
  exact ⟨_, _, _, exec_update_of_absorbBytes hlive hb, exec_update_of_absorbBytes hlive' hb',
    exec_update_of_absorbBytes hlive both, rfl⟩

/-- Settles O17: the loop over no bytes hands back the buffer and `OFFSET` as they are. -/
theorem emptyUpdateOnlyNamesThePhase : Obligations.EmptyUpdateOnlyNamesThePhase := by
  intro s hlive
  refine ⟨_, exec_update_of_absorbBytes (data := []) hlive rfl, ?_, rfl, rfl⟩
  rw [State.complete_ctx, Context.afterUpdate, BitVec.ofNat_toNat, BitVec.setWidth_eq]

/-! ## The state machine of `ABSORB` (R78) -/

section Fsm

variable {data : List Byte} {rate cap : Nat}

theorem AbsorbFsm.run_add (j k : Nat) (m : AbsorbFsm) :
    AbsorbFsm.run data rate cap (j + k) m = AbsorbFsm.run data rate cap k (AbsorbFsm.run data rate cap j m) := by
  induction j generalizing m with
  | zero => rw [Nat.zero_add, AbsorbFsm.run]
  | succ j ih => rw [Nat.succ_add, AbsorbFsm.run, ih, AbsorbFsm.run]

theorem AbsorbFsm.step_check (hsum : rate + cap = 1600) (hmod : rate % 8 = 0) (hpos : 8 ≤ rate) (c : Context) :
    (AbsorbFsm.start c).step data rate cap = ⟨.next, c.buffer, c.offset, c.offset.toNat, 0, 0⟩ := by
  have hrate : ¬ (rate % 8 ≠ 0 ∨ rate < 8) := by omega
  simp only [AbsorbFsm.step, AbsorbFsm.start, Config.stateBits, hsum, ne_eq, not_true_eq_false, if_false]
  rw [if_neg hrate]

theorem AbsorbFsm.step_next_of_lt {j : Nat} (h : j < data.length) (b : Buffer) (o : BitVec 8) (fill p : Nat) :
    AbsorbFsm.step data rate cap ⟨.next, b, o, fill, j, p⟩ = ⟨.xor, b, o, fill, j, p⟩ := by
  simp only [AbsorbFsm.step, h, if_true]

theorem AbsorbFsm.step_next_at_end (b : Buffer) (o : BitVec 8) (fill p : Nat) :
    AbsorbFsm.step data rate cap ⟨.next, b, o, fill, data.length, p⟩ = ⟨.done, b, o, fill, data.length, p⟩ := by
  simp only [AbsorbFsm.step, Nat.lt_irrefl, if_false]

theorem AbsorbFsm.step_xor_of_full {fill : Nat} (h : fill + 1 = rate / 8) (b : Buffer) (o : BitVec 8) (j p : Nat) :
    AbsorbFsm.step data rate cap ⟨.xor, b, o, fill, j, p⟩ =
      ⟨.permute, b.xorByte fill (data.getD j 0), o, fill + 1, j + 1, p⟩ := by
  simp only [AbsorbFsm.step, h, if_true]

theorem AbsorbFsm.step_xor_of_part {fill : Nat} (h : fill + 1 ≠ rate / 8) (b : Buffer) (o : BitVec 8) (j p : Nat) :
    AbsorbFsm.step data rate cap ⟨.xor, b, o, fill, j, p⟩ =
      ⟨.next, b.xorByte fill (data.getD j 0), o, fill + 1, j + 1, p⟩ := by
  simp only [AbsorbFsm.step, h, if_false]

/-- The visits of `A_NEXT`, `A_XOR` and `A_PERMUTE` for a byte that completes the block. -/
theorem AbsorbFsm.run_turn_of_full {j fill : Nat} (hj : j < data.length) (h : fill + 1 = rate / 8) (k : Nat)
    (b : Buffer) (o : BitVec 8) (p : Nat) :
    AbsorbFsm.run data rate cap (k + 3) ⟨.next, b, o, fill, j, p⟩ =
      AbsorbFsm.run data rate cap k ⟨.next, permute (b.xorByte fill (data.getD j 0)), o, 0, j + 1, p + 1⟩ := by
  rw [AbsorbFsm.run, step_next_of_lt hj, AbsorbFsm.run, step_xor_of_full h, AbsorbFsm.run, AbsorbFsm.step]

/-- The visits of `A_NEXT` and `A_XOR` for a byte that does not complete the block. -/
theorem AbsorbFsm.run_turn_of_part {j fill : Nat} (hj : j < data.length) (h : fill + 1 ≠ rate / 8) (k : Nat)
    (b : Buffer) (o : BitVec 8) (p : Nat) :
    AbsorbFsm.run data rate cap (k + 2) ⟨.next, b, o, fill, j, p⟩ =
      AbsorbFsm.run data rate cap k ⟨.next, b.xorByte fill (data.getD j 0), o, fill + 1, j + 1, p⟩ := by
  rw [AbsorbFsm.run, step_next_of_lt hj, AbsorbFsm.run, step_xor_of_part h]

theorem getD_and_drop_of_drop_eq_cons {j : Nat} {x : Byte} {rest : List Byte} (h : data.drop j = x :: rest) :
    j < data.length ∧ data.getD j 0 = x ∧ data.drop (j + 1) = rest := by
  have hj : j < data.length := by
    by_contra hge
    simp [List.drop_eq_nil_of_le (Nat.le_of_not_lt hge)] at h
  rw [List.drop_eq_getElem_cons hj, List.cons.injEq] at h
  obtain ⟨hx, hrest⟩ := h
  exact ⟨hj, (List.getD_eq_getElem data 0 hj).trans hx, hrest⟩

/-- From `A_NEXT` at byte `j` the machine visits two micro-states for each byte of `rest`, the bytes still to come, and
one more for each block completed, and does what the loop of `ABSORB` does. -/
theorem AbsorbFsm.run_next (hmax : rate / 8 ≤ 200) {rest : List Byte} {j fill : Nat} {b b' : Buffer} {fill' : Nat}
    (hrest : data.drop j = rest) (hfill : fill < rate / 8)
    (hloop : absorbBytes (rate / 8) rest b fill = .done (b', fill')) (o : BitVec 8) (p : Nat) :
    AbsorbFsm.run data rate cap (2 * rest.length + (fill + rest.length) / (rate / 8)) ⟨.next, b, o, fill, j, p⟩ =
      ⟨.next, b', o, fill', j + rest.length, p + (fill + rest.length) / (rate / 8)⟩ := by
  induction rest generalizing j fill b p with
  | nil =>
    cases hloop
    simp [AbsorbFsm.run, Nat.div_eq_of_lt hfill]
  | cons x rest ih =>
    obtain ⟨hj, hx, hrest'⟩ := getD_and_drop_of_drop_eq_cons hrest
    rw [absorbBytes_cons _ _ _ _ (by omega)] at hloop
    rw [List.length_cons]
    by_cases hfull : fill + 1 = rate / 8
    · rw [if_pos hfull] at hloop
      have blocks : (fill + (rest.length + 1)) / (rate / 8) = (0 + rest.length) / (rate / 8) + 1 := by
        rw [← Nat.add_div_right _ (by omega)]
        congr 1
        omega
      have steps : 2 * (rest.length + 1) + ((0 + rest.length) / (rate / 8) + 1) =
          2 * rest.length + (0 + rest.length) / (rate / 8) + 3 := by omega
      rw [blocks, steps, run_turn_of_full hj hfull, hx, ih hrest' (by omega) hloop (p + 1)]
      congr 1 <;> omega
    · rw [if_neg hfull] at hloop
      have fills : fill + (rest.length + 1) = fill + 1 + rest.length := by omega
      have steps : 2 * (rest.length + 1) + (fill + 1 + rest.length) / (rate / 8) =
          2 * rest.length + (fill + 1 + rest.length) / (rate / 8) + 2 := by omega
      rw [fills, steps, run_turn_of_part hj hfull, hx, ih hrest' (by omega) hloop p]
      congr 1
      omega

/-- A whole call: `A_CHECK`, the loop, the last `A_NEXT` and `A_DONE`. -/
theorem AbsorbFsm.run_start (hsum : rate + cap = 1600) (hmod : rate % 8 = 0) (hpos : 8 ≤ rate) {c : Context}
    (hoff : c.offset.toNat < rate / 8) {b : Buffer} {fill : Nat}
    (hloop : absorbBytes (rate / 8) data c.buffer c.offset.toNat = .done (b, fill)) :
    AbsorbFsm.run data rate cap (3 + 2 * data.length + (c.offset.toNat + data.length) / (rate / 8))
        (AbsorbFsm.start c) =
      ⟨.done, b, BitVec.ofNat 8 fill, fill, data.length, (c.offset.toNat + data.length) / (rate / 8)⟩ := by
  have steps : 3 + 2 * data.length + (c.offset.toNat + data.length) / (rate / 8) =
      (2 * data.length + (c.offset.toNat + data.length) / (rate / 8)) + 2 + 1 := by omega
  rw [steps, AbsorbFsm.run, step_check hsum hmod hpos, AbsorbFsm.run_add,
    run_next (by omega) List.drop_zero hoff hloop, Nat.zero_add, Nat.zero_add, AbsorbFsm.run, step_next_at_end]
  rfl

end Fsm

/-- Settles O47: the state machine and `ABSORB` run the same loop. -/
theorem absorbFsmRefinesAbsorb : Obligations.AbsorbFsmRefinesAbsorb := by
  intro c data rate cap hsum hmod hpos hoff
  obtain ⟨b, hb, habsorb⟩ := absorb_completes c data hsum hmod hpos hoff
  exact ⟨_, _, habsorb, AbsorbFsm.run_start hsum hmod hpos hoff hb, rfl, rfl, rfl, rfl⟩

end Sys2Proof.Machine
end

section
/-! PROOFS. The sponge in whole blocks (00_scope.md R12): the loop of `ABSORB` over the padded message is block by block
absorption, and the padding of `SQUEEZE` on the buffer is the padding on the message. -/

namespace Sys2Proof.Machine

/-! ## Exclusive-or into one byte -/

theorem Buffer.xorByte_zero (b : Buffer) {k : Nat} (hk : k < 200) : b.xorByte k 0 = b := by
  apply Buffer.ext_byte
  intro n _
  rw [Buffer.byte_xorByte b 0 hk]
  split
  · next h => rw [h]; exact BitVec.xor_zero
  · rfl

theorem Buffer.xorByte_xorByte_same (b : Buffer) {k : Nat} (u v : Byte) (hk : k < 200) :
    (b.xorByte k u).xorByte k v = b.xorByte k (u ^^^ v) := by
  apply Buffer.ext_byte
  intro n _
  simp only [Buffer.byte_xorByte _ _ hk, if_true]
  split
  · exact BitVec.xor_assoc ..
  · rfl

/-! ## Whole blocks -/

/-- The first `n` bytes of a block, `n` short of the whole. -/
theorem absorbBytes_take_of_lt {rb : Nat} (hrb : rb ≤ 200) (block : List Byte) (b : Buffer) {n : Nat} (hn : n < rb)
    (hlen : n ≤ block.length) :
    absorbBytes rb (block.take n) b 0 =
      .done ((List.range n).foldl (fun b k => b.xorByte k (block.getD k 0)) b, n) := by
  induction n with
  | zero => rfl
  | succ n ih =>
    have hnext : block.take (n + 1) = block.take n ++ [block.getD n 0] := by
      rw [List.take_succ_eq_append_getElem (by omega), List.getD_eq_getElem _ _ (by omega)]
    rw [hnext, absorbBytes_append _ _ _ _ _ (ih (by omega) (by omega)), absorbBytes_cons _ _ _ _ (by omega),
      if_neg (by omega), List.range_succ, List.foldl_concat]
    rfl

/-- One whole block. -/
theorem absorbBytes_block {rb : Nat} (hpos : 0 < rb) (hrb : rb ≤ 200) {block : List Byte} (b : Buffer)
    (hlen : block.length = rb) : absorbBytes rb block b 0 = .done (permute (xorBytes b block), 0) := by
  obtain ⟨n, rfl⟩ : ∃ n, rb = n + 1 := ⟨rb - 1, by omega⟩
  have hlast : block = block.take n ++ [block.getD n 0] := by
    rw [List.getD_eq_getElem _ _ (by omega), ← List.take_succ_eq_append_getElem (by omega), ← hlen, List.take_length]
  conv => lhs; rw [hlast]
  rw [absorbBytes_append _ _ _ _ _ (absorbBytes_take_of_lt hrb block b (by omega) (by omega)),
    absorbBytes_cons _ _ _ _ (by omega), if_pos rfl, xorBytes, hlen, List.range_succ, List.foldl_concat]
  rfl

/-- The first `n` blocks of a byte sequence. -/
theorem absorbBytes_blocks {rb : Nat} (hpos : 0 < rb) (hrb : rb ≤ 200) (data : List Byte) (b : Buffer) {n : Nat}
    (hlen : rb * n ≤ data.length) :
    absorbBytes rb (data.take (rb * n)) b 0 =
      .done ((List.range n).foldl (fun b n => permute (xorBytes b (blockAt rb data n))) b, 0) := by
  induction n with
  | zero => rfl
  | succ n ih =>
    rw [Nat.mul_succ] at hlen ⊢
    have hblock : (blockAt rb data n).length = rb := by
      rw [blockAt, List.length_take, List.length_drop]
      omega
    rw [List.take_add, ← blockAt, absorbBytes_append _ _ _ _ _ (ih (by omega)), absorbBytes_block hpos hrb _ hblock,
      List.range_succ, List.foldl_concat]

theorem absorbBytes_whole_blocks {rb : Nat} (hpos : 0 < rb) (hrb : rb ≤ 200) {data : List Byte} (b : Buffer)
    (hdvd : rb ∣ data.length) : absorbBytes rb data b 0 = .done (absorbBlocks rb data b, 0) := by
  have h := absorbBytes_blocks hpos hrb data b (n := data.length / rb) (Nat.mul_div_le _ _)
  rwa [Nat.mul_div_cancel' hdvd, List.take_length] at h

/-! ## Padding -/

/-- The bytes that follow a message whose last block holds `fill` bytes. -/
def paddingBytes (rb : Nat) (suffix : Byte) (fill : Nat) : List Byte :=
  if rb - fill = 1 then [suffix ^^^ 0x80] else suffix :: List.replicate (rb - fill - 2) 0 ++ [0x80]

theorem paddedMessage_eq_append (rb : Nat) (suffix : Byte) (data : List Byte) :
    paddedMessage rb suffix data = data ++ paddingBytes rb suffix (data.length % rb) := by
  rw [paddedMessage, paddingBytes]
  split
  · rfl
  · rw [List.append_assoc]

theorem paddingBytes_length {rb fill : Nat} (suffix : Byte) (hfill : fill < rb) :
    (paddingBytes rb suffix fill).length = rb - fill := by
  rw [paddingBytes]
  split
  · next hone => exact hone.symm
  · next hmore =>
    simp only [List.cons_append, List.length_cons, List.length_append, List.length_replicate, List.length_nil]
    omega

theorem dvd_paddedMessage_length {rb : Nat} (hpos : 0 < rb) (suffix : Byte) (data : List Byte) :
    rb ∣ (paddedMessage rb suffix data).length := by
  have hfill := Nat.mod_lt data.length hpos
  rw [paddedMessage_eq_append, List.length_append, paddingBytes_length suffix hfill]
  refine ⟨data.length / rb + 1, ?_⟩
  have := Nat.div_add_mod data.length rb
  rw [Nat.mul_succ]
  omega

/-- Zero bytes inside a block move the fill count and nothing else. -/
theorem absorbBytes_zeros {rb : Nat} (hrb : rb ≤ 200) (n : Nat) (b : Buffer) {fill : Nat} (h : fill + n < rb) :
    absorbBytes rb (List.replicate n 0) b fill = .done (b, fill + n) := by
  induction n generalizing fill with
  | zero => rfl
  | succ n ih =>
    rw [List.replicate_succ, absorbBytes_cons _ _ _ _ (by omega), if_neg (by omega), Buffer.xorByte_zero b (by omega),
      ih (by omega), Nat.add_right_comm, Nat.add_assoc]

/-- Absorbing the padding bytes is what `SQUEEZE` does to the buffer first (42_squeeze.md R82 to R85). -/
theorem absorbBytes_padding {rb fill : Nat} {suffix : Byte} (hrb : rb ≤ 200) (hsuffix : suffix.getLsbD 7 = false)
    (b : Buffer) (hfill : fill < rb) :
    absorbBytes rb (paddingBytes rb suffix fill) b fill = .done (padAndPermute b fill rb suffix, 0) := by
  rw [padAndPermute_of_no_collision b (padCollides_eq_false_of_bit hsuffix fill rb), paddingBytes]
  split
  · next hone =>
    obtain rfl : fill = rb - 1 := by omega
    rw [absorbBytes_cons _ _ _ _ (by omega), if_pos (by omega), Buffer.xorByte_xorByte_same _ _ _ (by omega)]
    rfl
  · next hmore =>
    have zeros := absorbBytes_zeros hrb (rb - fill - 2) (b.xorByte fill suffix) (fill := fill + 1) (by omega)
    have hlast : fill + 1 + (rb - fill - 2) = rb - 1 := by omega
    rw [hlast] at zeros
    rw [List.cons_append, absorbBytes_cons _ _ _ _ (by omega), if_neg (by omega),
      absorbBytes_append _ _ _ _ _ zeros, absorbBytes_cons _ _ _ _ (by omega), if_pos (by omega)]
    rfl

/-- A buffer that has absorbed a message, padded and permuted, is the sponge's after the padded message. -/
theorem padAndPermute_eq_absorbBlocks {rb : Nat} {suffix : Byte} (hpos : 0 < rb) (hrb : rb ≤ 200)
    (hsuffix : suffix.getLsbD 7 = false) {data : List Byte} {b : Buffer} {fill : Nat}
    (h : absorbBytes rb data .zero 0 = .done (b, fill)) :
    padAndPermute b fill rb suffix = absorbBlocks rb (paddedMessage rb suffix data) .zero := by
  obtain ⟨b', hb'⟩ := absorbBytes_completes hrb data .zero hpos
  rw [Nat.zero_add] at hb'
  cases hb'.symm.trans h
  have padded := absorbBytes_whole_blocks hpos hrb .zero (dvd_paddedMessage_length hpos suffix data)
  rw [paddedMessage_eq_append, absorbBytes_append _ _ _ _ _ h,
    absorbBytes_padding hrb hsuffix b (Nat.mod_lt _ hpos)] at padded
  injection padded with padded
  rw [paddedMessage_eq_append]
  exact congrArg Prod.fst padded

/-! ## `HASH` -/

/-- The block length of a legal pair. -/
theorem LegalPair.rateBytes_bounds {m : Mode} {n : Nat} (h : LegalPair m n) :
    0 < (1600 - 2 * n) / 8 ∧ (1600 - 2 * n) / 8 ≤ 200 := by
  obtain ⟨-, -, hpos, hmax⟩ := h.rate_valid
  omega

theorem exec_hash_eq_sponge {outLen n : Nat} {m : Mode} {s : State} (input : List Byte)
    (hidle : s.ctx.phase.isLive = false) (hlegal : LegalPair m n) (hlen : m = .sha3 → outLen = n / 8) :
    exec (.hash outLen input n m) s = .next (s.complete (.cleared .finalized)
      (spongeOutput ((1600 - 2 * n) / 8) (suffixOf m) input outLen)) := by
  obtain ⟨hpos, hmax⟩ := hlegal.rateBytes_bounds
  obtain ⟨b, out, hb, rfl, -, he⟩ := execHash_completes outLen input hidle ((legal_iff_legalPair m n).2 hlegal)
    ((outLenMismatches_eq_false m outLen n).2 hlen)
  rw [emitBlocks_eq_output hpos _ _ _ (Nat.le_refl _),
    padAndPermute_eq_absorbBlocks hpos hmax (suffixOf_bit_seven m) hb] at he
  exact he

/-- Settles O31: `HASH` absorbs the input byte by byte and pads the buffer, which is the sponge of the padded input. -/
theorem hashIsTheSponge : Obligations.HashIsTheSponge := by
  intro outLen input n m s hidle hlegal hlen
  refine ⟨_, exec_hash_eq_sponge input ((Phase.isLive_eq_false_iff _).2 hidle) hlegal hlen, ?_⟩
  rw [State.complete_responses, suffixOf_eq_ite]

end Sys2Proof.Machine
end

section
/-! PROOFS. A streamed computation (43_streaming_engine.md R95, R100, R102): what the context holds after `INIT` and any
number of `UPDATE`s, and the run of a host's queue. -/

namespace Sys2Proof.Machine

/-- `c` is live with parameters `(n, m)` and has absorbed exactly the bytes `data` since `INIT`. -/
structure Context.Absorbed (c : Context) (n : Nat) (m : Mode) (data : List Byte) : Prop where
  live : c.Live
  rateBytes : c.rateBytes = (1600 - 2 * n) / 8
  mode : c.mode = m
  obs : c.obs.toNat = n
  loop : absorbBytes c.rateBytes data .zero 0 = .done (c.buffer, c.offset.toNat)

theorem exec_init_absorbed {n : Nat} {m : Mode} (s : State) (h : LegalPair m n) :
    ∃ c, exec (.init n m) s = .next (s.complete c []) ∧ c.Absorbed n m [] := by
  have hlegal := (legal_iff_legalPair m n).2 h
  obtain ⟨hrate, -, hobs⟩ := s.ctx.start_numbers hlegal
  exact ⟨_, exec_init_of_legalPair s h, s.ctx.start_live hlegal, congrArg (· / 8) hrate, rfl, hobs, rfl⟩

theorem exec_update_absorbed {n : Nat} {m : Mode} {data : List Byte} {s : State} (h : s.ctx.Absorbed n m data)
    (p : List Byte) :
    ∃ c, exec (.update p) s = .next (s.complete c []) ∧ c.Absorbed n m (data ++ p) := by
  obtain ⟨b, fill, hb, -, hlt⟩ := h.live.absorbBytes_completes p
  refine ⟨_, exec_update_of_absorbBytes h.live hb, h.live.afterUpdate b hlt, h.rateBytes, h.mode, h.obs, ?_⟩
  rw [h.live.afterUpdate_offset b hlt]
  exact (absorbBytes_append _ data p _ _ h.loop).trans hb

theorem exec_final_absorbed {n : Nat} {m : Mode} {data : List Byte} {s : State} (h : s.ctx.Absorbed n m data)
    {outLen : Nat} (hlen : m = .sha3 → outLen = n / 8) :
    exec (.final outLen) s = .next (s.complete (.cleared .finalized)
      (spongeOutput ((1600 - 2 * n) / 8) (suffixOf m) data outLen)) := by
  obtain ⟨hmax, hpos, -⟩ := h.live.rateBytes
  rw [exec_final_outputs h.live (by rwa [h.mode, h.obs]), h.live.suffix_eq,
    padAndPermute_eq_absorbBlocks hpos hmax (suffixOf_bit_seven _) h.loop, h.rateBytes, h.mode]
  rfl

/-- Settles O23: both ways the output is the sponge of the input. -/
theorem hashEqualsStreamedSequence : Obligations.HashEqualsStreamedSequence := by
  intro outLen input n m s hidle hlegal hlen
  obtain ⟨c, hinit, habsorbed⟩ := exec_init_absorbed s hlegal
  obtain ⟨c', hupdate, habsorbed'⟩ := exec_update_absorbed (s := s.complete c []) habsorbed input
  have hfinal := exec_final_absorbed (s := (s.complete c []).complete c' []) habsorbed' hlen
  refine ⟨_, _, _, _, _, hinit, hupdate, hfinal, exec_hash_eq_sponge input hidle.not_live hlegal hlen, rfl, ?_, rfl⟩
  simp only [State.complete_responses, List.append_assoc, List.cons_append, List.nil_append]

/-! ## Runs of the machine -/

/-- On any machine, a run whose first step ends goes on from there. -/
theorem run_succ_of_step (M : Host.Core) {k : Nat} {s t : M.State} (h : M.step s = .next t) :
    M.run (k + 1) s = M.run k t := by
  rw [Host.Core.run, h]

/-- On any machine, a run of one more step that ends is a step that ends, and the run from there. -/
theorem step_of_run_succ (M : Host.Core) {k : Nat} {s s' : M.State} (h : M.run (k + 1) s = .next s') :
    ∃ u, M.step s = .next u ∧ M.run k u = .next s' := by
  rw [Host.Core.run] at h
  split at h
  · next u hstep => exact ⟨u, hstep, h⟩
  · cases h
  · cases h

theorem core_run_succ {k : Nat} {s t : State} (h : step s = .next t) :
    Host.Core.run Sys2Proof.core (k + 1) s = Host.Core.run Sys2Proof.core k t :=
  run_succ_of_step Sys2Proof.core h

/-- A step that runs a well-formed command, presented as `encode` writes it. -/
theorem step_encoded {s : State} {i : Instr} {rest : List HostEvent} (hwf : i.wf = true)
    (h : s.pending = .command (encode i) :: rest) : step s = exec i { s with pending := rest } :=
  step_legal h (decode_encode hwf)

theorem LegalPair.init_wf {m : Mode} {n : Nat} (h : LegalPair m n) : (Instr.init n m).wf = true := by
  have : n < 2 ^ 16 := by rcases h with ⟨-, h⟩ | ⟨-, h⟩ <;> omega
  exact decide_eq_true this

/-- The host's queue from the first `UPDATE` of a streamed computation on: `chunks`, then `final(outLen)`. -/
def streamedEvents (chunks : List (List Byte)) (outLen : Nat) (rest : List HostEvent) : List HostEvent :=
  (chunks.map fun p => HostEvent.command (encode (.update p))) ++ .command (encode (.final outLen)) :: rest

/-- The run of such a queue, from a context that has absorbed `data`. -/
theorem core_run_streamed {outLen n : Nat} {m : Mode} (hlen : m = .sha3 → outLen = n / 8) (hwf : outLen < 2 ^ 32)
    (rest : List HostEvent) (chunks : List (List Byte)) {data : List Byte} {s : State}
    (habsorbed : s.ctx.Absorbed n m data) (hpending : s.pending = streamedEvents chunks outLen rest) :
    Host.Core.run Sys2Proof.core (chunks.length + 1) s =
      .next ⟨.cleared .finalized, rest, s.responses ++ List.replicate chunks.length ⟨.ok, []⟩ ++
        [⟨.ok, spongeOutput ((1600 - 2 * n) / 8) (suffixOf m) (data ++ chunks.flatten) outLen⟩]⟩ := by
  induction chunks generalizing data s with
  | nil =>
    have hfinalWf : (Instr.final outLen).wf = true := decide_eq_true hwf
    have hfinal := exec_final_absorbed (s := { s with pending := rest }) habsorbed hlen
    rw [List.length_nil, core_run_succ ((step_encoded hfinalWf hpending).trans hfinal)]
    simp [Host.Core.run, State.complete, State.answer]
  | cons p chunks ih =>
    obtain ⟨c, hupdate, habsorbed'⟩ :=
      exec_update_absorbed (s := { s with pending := streamedEvents chunks outLen rest }) habsorbed p
    rw [List.length_cons, core_run_succ ((step_encoded rfl hpending).trans hupdate), ih habsorbed' rfl]
    simp [List.replicate_succ]

/-- Settles O32: `INIT` leaves a context that has absorbed nothing, each `UPDATE` appends its chunk, and `FINAL`
answers the sponge of what was absorbed. -/
theorem streamedRunIsTheSponge : Obligations.StreamedRunIsTheSponge := by
  intro chunks outLen n m s rest hlegal hlen hwf hpending
  obtain ⟨c, hinit, habsorbed⟩ :=
    exec_init_absorbed { s with pending := streamedEvents chunks outLen rest } hlegal
  refine ⟨_, (core_run_succ ((step_encoded hlegal.init_wf hpending).trans hinit)).trans
    (core_run_streamed hlen hwf rest chunks habsorbed rfl), rfl, Context.cleared_idle (.inr rfl), rfl, ?_⟩
  simp [List.replicate_succ, suffixOf_eq_ite]

end Sys2Proof.Machine
end

section
/-! PROOFS. In an idle phase the registers other than `PHASE` cannot be observed (70_reset_and_hazards.md R125). -/

namespace Sys2Proof.Machine

/-- What any command does in idle phase `p`, as a function of `p` alone: it gives one response and leaves either the
context as it was or one that is the same from every context. -/
theorem exec_idle_uniform (i : Instr) {p : Phase} (hidle : p.isLive = false) :
    (∃ r, ∀ s : State, s.ctx.phase = p → exec i s = .next (s.answer s.ctx r)) ∨
      ∃ c r, ∀ s : State, s.ctx.phase = p → exec i s = .next (s.answer c r) := by
  cases i with
  | init n m =>
    by_cases hlegal : LegalPair m n
    · exact .inr ⟨{ (Context.cleared p).start n m with phase := .initialized }, ⟨.ok, []⟩,
        fun s _ => exec_init_of_legalPair s hlegal⟩
    · exact .inr ⟨_, _, fun s _ => exec_init_of_not_legalPair s hlegal⟩
  | update data => exact .inl ⟨_, fun s hs => execUpdate_idle data (hs ▸ hidle)⟩
  | final outLen => exact .inl ⟨_, fun s hs => execFinal_idle outLen (hs ▸ hidle)⟩
  | hash outLen input n m =>
    refine .inr ?_
    by_cases hchecks : LegalPair m n ∧ (m = .sha3 → outLen = n / 8)
    · exact ⟨_, _, fun s hs => exec_hash_eq_sponge input (hs ▸ hidle) hchecks.1 hchecks.2⟩
    · have hbad : legal m n = false ∨ outLenMismatches m outLen n = true := by
        rw [legal_eq_false_iff, ← Bool.not_eq_false, outLenMismatches_eq_false]
        tauto
      refine ⟨.cleared .uninitialized, ⟨.errParam, []⟩, fun s hs => ?_⟩
      obtain ⟨cause, he⟩ := execHash_invalid outLen input n m (hs ▸ hidle) hbad
      exact he

theorem State.SameToHost.refl (s : State) : s.SameToHost s := ⟨rfl, rfl, .inl rfl⟩

theorem State.SameToHost.eq_or_idle {s t : State} (h : s.SameToHost t) :
    s = t ∨ (s.ctx.phase = t.ctx.phase ∧ s.ctx.phase.isLive = false) := by
  obtain ⟨hpending, hresponses, hctx | hidle⟩ := h
  · refine .inl ?_
    obtain ⟨ctx, pending, responses⟩ := s
    obtain rfl : ctx = t.ctx := hctx
    obtain rfl : pending = t.pending := hpending
    obtain rfl : responses = t.responses := hresponses
    rfl
  · exact .inr hidle

/-- Taking the same event off both queues keeps the relation. -/
theorem State.SameToHost.take {s t : State} (h : s.SameToHost t) (rest : List HostEvent) :
    ({ s with pending := rest } : State).SameToHost { t with pending := rest } := by
  obtain ⟨-, hresponses, hctx⟩ := h
  exact ⟨rfl, hresponses, hctx⟩

/-- The same response, with contexts the relation allows, keeps it. -/
theorem State.SameToHost.answer {s t : State} (h : s.SameToHost t) {c d : Context}
    (hctx : c = d ∨ (c.phase = d.phase ∧ c.phase.isLive = false)) (r : Response) :
    (s.answer c r).SameToHost (t.answer d r) := by
  obtain ⟨hpending, hresponses, -⟩ := h
  exact ⟨hpending, congrArg (· ++ [r]) hresponses, hctx⟩

theorem exec_sameToHost {i : Instr} {s t s' : State} (h : s.SameToHost t) (he : exec i s = .next s') :
    ∃ t', exec i t = .next t' ∧ s'.SameToHost t' := by
  obtain rfl | ⟨hphase, hidle⟩ := h.eq_or_idle
  · exact ⟨s', he, .refl s'⟩
  · obtain ⟨r, hall⟩ | ⟨c, r, hall⟩ := exec_idle_uniform i hidle
    · cases (hall s rfl).symm.trans he
      exact ⟨_, hall t hphase.symm, h.answer (.inr ⟨hphase, hidle⟩) r⟩
    · cases (hall s rfl).symm.trans he
      exact ⟨_, hall t hphase.symm, h.answer (.inl rfl) r⟩

theorem step_sameToHost {s t s' : State} (h : s.SameToHost t) (hs : step s = .next s') :
    ∃ t', step t = .next t' ∧ s'.SameToHost t' := by
  have ⟨hpending, hresponses, hctx⟩ := h
  obtain ⟨hp, he⟩ | ⟨rest, hp, he⟩ | ⟨x, rest, i, hp, hd, he⟩ | ⟨x, rest, why, hp, hd, he⟩ :=
    step_cases s <;> rw [he] at hs <;> rw [hp] at hpending
  · cases hs
    exact ⟨t, step_nothing hpending.symm, h⟩
  · cases hs
    exact ⟨_, step_reset hpending.symm, rfl, hresponses, .inl rfl⟩
  · rw [step_legal hpending.symm hd]
    exact exec_sameToHost (h.take rest) hs
  · cases hs
    exact ⟨_, step_illegal hpending.symm hd, (h.take rest).answer hctx _⟩

/-- Settles O30: each step keeps the two machines alike to the host, so every run does. -/
theorem idleRegistersAreUnobservable : Obligations.IdleRegistersAreUnobservable := by
  intro k
  induction k with
  | zero =>
    intro s t s' h hrun
    cases hrun
    have ⟨_, hresponses, _⟩ := h
    exact ⟨t, rfl, hresponses, h⟩
  | succ k ih =>
    intro s t s' h hrun
    obtain ⟨u, hstep, hrest⟩ := step_of_run_succ Sys2Proof.core hrun
    obtain ⟨v, hstep', h'⟩ := step_sameToHost h hstep
    obtain ⟨t', hrun', hresponses, hsame⟩ := ih u v s' h' hrest
    exact ⟨t', (core_run_succ hstep').trans hrun', hresponses, hsame⟩

end Sys2Proof.Machine
end
